-- ==== Sys2Proof/Word.lean ====
section
/-! DEFINITION. The bit vectors of the block: the byte of the two streams, the command word, the operand and the
accumulator, each at the width the spec gives it. -/

namespace Sys2Proof

/-- One group on a stream (30_encoding.md R70). Bit 7 is the continuation bit, bits 6 to 0 the payload (R10). -/
abbrev Byte := BitVec 8

/-- The 7 payload bits of a group (30_encoding.md R70). -/
abbrev Payload := BitVec 7

/-- The 8-bit command word of an `Issue` (30_encoding.md R74). -/
abbrev Command := BitVec 8

/-- The 128-bit operand of an `Issue`, and the width of REM and RESULT (30_encoding.md R74, 10_state.md R24, R28). -/
abbrev Operand := BitVec 128

/-- The decoders' accumulator, 7·(N(128)+1) = 140 bits (10_state.md R26). -/
abbrev Acc := BitVec 140

/-- What a failing port reports. The spec gives it no width, structure or numbering (10_state.md R29, 91 N14): the
model tells two reports apart and does nothing else with them. DESIGN CHOICE, log 2. -/
structure IoInfo where
  token : Nat
  deriving DecidableEq, Repr, Inhabited

end Sys2Proof
end

