-- ==== Sys2Proof/Syntax.lean ====
section
/-! DEFINITION. The commands: one constructor of `Instr` per row of spec/opcode_table.json, and the assembler's lines
(30_encoding.md R78, R81). -/

namespace Sys2Proof

/-- The widths the source names (00_scope.md R6). -/
inductive Width where
  | w8 | w16 | w32 | w64 | w128
  deriving DecidableEq, Repr

/-- The OP field of a command (30_encoding.md R74), and the contents of OPR (10_state.md R23). -/
inductive Op where
  | encu | encs | decu | decs
  deriving DecidableEq, Repr

/-- The 20 commands of 30_encoding.md R78. Each carries the 128-bit operand of its `Issue` whole: the encoders use
its low W bits, the decoders none of it (R76). -/
inductive Instr where
  | encuW8 (operand : Operand)
  | encuW16 (operand : Operand)
  | encuW32 (operand : Operand)
  | encuW64 (operand : Operand)
  | encuW128 (operand : Operand)
  | encsW8 (operand : Operand)
  | encsW16 (operand : Operand)
  | encsW32 (operand : Operand)
  | encsW64 (operand : Operand)
  | encsW128 (operand : Operand)
  | decuW8 (operand : Operand)
  | decuW16 (operand : Operand)
  | decuW32 (operand : Operand)
  | decuW64 (operand : Operand)
  | decuW128 (operand : Operand)
  | decsW8 (operand : Operand)
  | decsW16 (operand : Operand)
  | decsW32 (operand : Operand)
  | decsW64 (operand : Operand)
  | decsW128 (operand : Operand)
  deriving DecidableEq, Repr

/-- A value as an assembler line writes it: decimal, perhaps negative, or a 0x-hex literal (30_encoding.md R81). -/
inductive Literal where
  | dec (value : Int)
  | hex (pattern : Nat)
  deriving DecidableEq, Repr

/-- One line of assembler text (30_encoding.md R81). -/
inductive AsmLine where
  | encu (w : Width) (value : Literal)
  | encs (w : Width) (value : Literal)
  | decu (w : Width)
  | decs (w : Width)
  deriving DecidableEq, Repr

end Sys2Proof
end

