-- ==== Sys2Proof/Config.lean ====
section
/-! DEFINITION. What an implementation fixes, and what the spec leaves to the environment as any value: the two named
parameters, the answers the ports can give, and the free values. -/

namespace Sys2Proof

/-- The two parameters the spec names (00_scope.md R6 and R8). -/
structure Params where
  /-- WIDTHS: the widths built into the block. -/
  widths : List Width
  /-- SLEB_EXTRA_GROUP: the groups a signed decode may read beyond N(W), 0 or 1. -/
  slebExtraGroup : Fin 2
  deriving DecidableEq, Repr

/-- The values this spec takes: all five widths and no extra group (00_scope.md R6, R8; 92 D1, D5). -/
def Config.params : Params :=
  { widths := [.w8, .w16, .w32, .w64, .w128], slebExtraGroup := 0 }

/-- The answers of the byte source to one `SrcNext` (20_memory.md R51). -/
inductive SrcAnswer where
  | byte (b : Byte)
  | endOfInput
  | fail (info : IoInfo)
  deriving DecidableEq, Repr, Inhabited

/-- The answers of the byte sink to one `SnkPut` (20_memory.md R52). -/
inductive SnkAnswer where
  | ok
  | fail (info : IoInfo)
  deriving DecidableEq, Repr, Inhabited

/-- FREE VALUE: the answer of a source of which nothing is known ("any value", 93_implementation_defined.md; log 5). -/
opaque Config.srcDraw : Nat → SrcAnswer

/-- FREE VALUE: the answer of a sink of which nothing is known ("any value", 93_implementation_defined.md; log 5). -/
opaque Config.snkDraw : Nat → SnkAnswer

/-- FREE VALUE: what the sink kept of the byte of a failed put: nothing, or some byte (20_memory.md R56, 92 D10; log 6). -/
opaque Config.failedPutLeft : Nat → Byte → Option Byte

/-- FREE VALUE: whether the transaction pending at a reset moved its byte (70_reset_and_hazards.md R232; log 7). -/
opaque Config.pendingMoved : Nat → Bool

end Sys2Proof
end

