-- ==== Sys2Proof/Machine/Operands.lean ====
section
/-! DEFINITION. The widths and codes, the operand and result forms, and the bit fields of a group and of the
accumulator (00_scope.md R6 to R12, 30_encoding.md R70 to R77). -/

namespace Sys2Proof

/-- The WC field that names a width (30_encoding.md R74). -/
def Width.code : Width → BitVec 3
  | .w8 => 0
  | .w16 => 1
  | .w32 => 2
  | .w64 => 3
  | .w128 => 4

/-- The width a WC field names; 5, 6 and 7 name none (30_encoding.md R75). -/
def Width.ofCode (c : BitVec 3) : Option Width :=
  match c.toNat with
  | 0 => some .w8
  | 1 => some .w16
  | 2 => some .w32
  | 3 => some .w64
  | 4 => some .w128
  | _ => none

/-- W in bits: `8 << WC` (30_encoding.md R75). -/
def Width.bits (w : Width) : Nat := 8 <<< w.code.toNat

/-- N(W) = ceil(W/7), the unsigned group bound (00_scope.md R7). -/
def Width.groups (w : Width) : Nat := (w.bits + 6) / 7

/-- NS(W) = N(W) + SLEB_EXTRA_GROUP, the signed group bound (00_scope.md R8). -/
def Width.signedGroups (p : Params) (w : Width) : Nat := w.groups + p.slebExtraGroup.val

/-- The OP code (30_encoding.md R74). -/
def Op.code : Op → BitVec 2
  | .encu => 0
  | .encs => 1
  | .decu => 2
  | .decs => 3

/-- The operation an OP field names (30_encoding.md R74). -/
def Op.ofCode (c : BitVec 2) : Op :=
  match c.toNat with
  | 0 => .encu
  | 1 => .encs
  | 2 => .decu
  | _ => .decs

/-- ENCU and ENCS, the commands that reach the sink; the others reach the source (20_memory.md R50). -/
def Op.isEncoder : Op → Bool
  | .encu | .encs => true
  | .decu | .decs => false

/-- The command of an operation at a width, with an operand (30_encoding.md R78). -/
def Instr.of : Op → Width → Operand → Instr
  | .encu, .w8, x => .encuW8 x
  | .encu, .w16, x => .encuW16 x
  | .encu, .w32, x => .encuW32 x
  | .encu, .w64, x => .encuW64 x
  | .encu, .w128, x => .encuW128 x
  | .encs, .w8, x => .encsW8 x
  | .encs, .w16, x => .encsW16 x
  | .encs, .w32, x => .encsW32 x
  | .encs, .w64, x => .encsW64 x
  | .encs, .w128, x => .encsW128 x
  | .decu, .w8, x => .decuW8 x
  | .decu, .w16, x => .decuW16 x
  | .decu, .w32, x => .decuW32 x
  | .decu, .w64, x => .decuW64 x
  | .decu, .w128, x => .decuW128 x
  | .decs, .w8, x => .decsW8 x
  | .decs, .w16, x => .decsW16 x
  | .decs, .w32, x => .decsW32 x
  | .decs, .w64, x => .decsW64 x
  | .decs, .w128, x => .decsW128 x

/-- The operation of a command (30_encoding.md R78). -/
def Instr.op : Instr → Op
  | .encuW8 _ | .encuW16 _ | .encuW32 _ | .encuW64 _ | .encuW128 _ => .encu
  | .encsW8 _ | .encsW16 _ | .encsW32 _ | .encsW64 _ | .encsW128 _ => .encs
  | .decuW8 _ | .decuW16 _ | .decuW32 _ | .decuW64 _ | .decuW128 _ => .decu
  | .decsW8 _ | .decsW16 _ | .decsW32 _ | .decsW64 _ | .decsW128 _ => .decs

/-- The width of a command (30_encoding.md R78). -/
def Instr.width : Instr → Width
  | .encuW8 _ | .encsW8 _ | .decuW8 _ | .decsW8 _ => .w8
  | .encuW16 _ | .encsW16 _ | .decuW16 _ | .decsW16 _ => .w16
  | .encuW32 _ | .encsW32 _ | .decuW32 _ | .decsW32 _ => .w32
  | .encuW64 _ | .encsW64 _ | .decuW64 _ | .decsW64 _ => .w64
  | .encuW128 _ | .encsW128 _ | .decuW128 _ | .decsW128 _ => .w128

/-- The operand of a command's `Issue` (10_state.md R30). -/
def Instr.operand : Instr → Operand
  | .encuW8 x | .encuW16 x | .encuW32 x | .encuW64 x | .encuW128 x => x
  | .encsW8 x | .encsW16 x | .encsW32 x | .encsW64 x | .encsW128 x => x
  | .decuW8 x | .decuW16 x | .decuW32 x | .decuW64 x | .decuW128 x => x
  | .decsW8 x | .decsW16 x | .decsW32 x | .decsW64 x | .decsW128 x => x

/-- `zext_128(operand[W-1:0])`: the operand as ENCU reads it (30_encoding.md R76). -/
def zextOperand (w : Width) (x : Operand) : Operand := (x.setWidth w.bits).setWidth 128

/-- `sext_128(operand[W-1:0])`: the operand as ENCS reads it (30_encoding.md R76). -/
def sextOperand (w : Width) (x : Operand) : Operand := (x.setWidth w.bits).signExtend 128

/-- `REM[6:0]`: the group an encoder takes off next (40 R101, 42 R161). -/
def lowGroup (r : Operand) : Payload := r.extractLsb' 0 7

/-- `REM >>u 7` (40_uleb128_encoder.md R101). -/
def shiftUnsigned (r : Operand) : Operand := r >>> 7

/-- `REM >>s 7` (42_sleb128.md R161). -/
def shiftSigned (r : Operand) : Operand := r.sshiftRight 7

/-- The byte of a group: continuation clear on the last, set on the others (40 R101, 42 R161). -/
def groupByte (last : Bool) (g : Payload) : Byte := (if last then 0#1 else 1#1) ++ g

/-- `b[6:0]` (30_encoding.md R70). -/
def payload (b : Byte) : Payload := b.extractLsb' 0 7

/-- `ACC[7k+6:7k] <- p`: the seven bits are replaced, whatever they held (41 R131, 42 R171). -/
def accWrite (acc : Acc) (k : Nat) (p : Payload) : Acc :=
  (acc &&& ~~~((BitVec.allOnes 7).setWidth 140 <<< (7 * k))) ||| (p.setWidth 140 <<< (7 * k))

/-- `sext_140(ACC[7n-1:0])`, the sign extension of an n-group value (42_sleb128.md R173). -/
def sextAcc (acc : Acc) (n : Nat) : Acc := (acc.setWidth (7 * n)).signExtend 140

/-- `zext_128(ACC[W-1:0])`, the result of DECU (41_uleb128_decoder.md R134). -/
def unsignedResult (w : Width) (acc : Acc) : Operand := (acc.setWidth w.bits).setWidth 128

/-- `sext_128(x[W-1:0])`, the result of DECS (42_sleb128.md R171). -/
def signedResult (w : Width) (x : Acc) : Operand := (x.setWidth w.bits).signExtend 128

end Sys2Proof
end

