-- ==== Sys2Proof/Machine/Flags.lean ====
section
/-! DEFINITION. The block has no flag register (10_state.md R35). These are the bits and tests its steps are driven by:
the continuation bit, the tests that end an encoding, and the overflow tests of the decoders. -/

namespace Sys2Proof

/-- The continuation bit `b[7]` (30_encoding.md R70). -/
def contBit (b : Byte) : Bool := b.getLsbD 7

/-- The group sign bit `g[6]` (10_state.md R35, 30_encoding.md R77). -/
def groupSign (g : Payload) : Bool := g.getLsbD 6

/-- ENCU's `last`, on REM after the shift: no nonzero bits remain (40_uleb128_encoder.md R101). -/
def encuLast (shifted : Operand) : Bool := shifted == 0

/-- ENCS's `last`, on REM after the shift and the group taken off: the sign-determination test (42_sleb128.md R161). -/
def encsLast (shifted : Operand) (g : Payload) : Bool :=
  (shifted == 0 && !groupSign g) || (shifted == BitVec.allOnes 128 && groupSign g)

/-- The byte ENCU emits when REM holds `r` (40_uleb128_encoder.md R101). -/
def encuByte (r : Operand) : Byte := groupByte (encuLast (shiftUnsigned r)) (lowGroup r)

/-- The byte ENCS emits when REM holds `r` (42_sleb128.md R161). -/
def encsByte (r : Operand) : Byte := groupByte (encsLast (shiftSigned r) (lowGroup r)) (lowGroup r)

/-- DECU's payload test `ACC[139:W] != 0` (41_uleb128_decoder.md R131, R132). -/
def payloadOverflow (w : Width) (acc : Acc) : Bool := (acc >>> w.bits) != 0

/-- The group-bound test `k + 1 == bound` on a byte with its continuation bit set (41 R133, 42 R172). -/
def atBound (k bound : Nat) : Bool := k + 1 == bound

/-- The signed overflow detector's `fitsS(x, W)`: -2^(W-1) ≤ sval(x) ≤ 2^(W-1) - 1 (42_sleb128.md R174). -/
def fitsS (w : Width) (x : Acc) : Bool :=
  decide (-(2 ^ (w.bits - 1) : Int) ≤ x.toInt) && decide (x.toInt ≤ (2 ^ (w.bits - 1) : Int) - 1)

end Sys2Proof
end

