-- ==== Sys2Proof/WellFormed.lean ====
section
/-! DEFINITION. Which terms are well formed: a command at a width the block is built with (00_scope.md R6), and an
assembler line whose value is in the range of its width (30_encoding.md R81). -/

namespace Sys2Proof

/-- The command's width is one of WIDTHS (00_scope.md R6). -/
def Instr.wfIn (p : Params) (i : Instr) : Bool := p.widths.contains i.width

/-- Well formed for the block this spec specifies. -/
def Instr.wf (i : Instr) : Bool := i.wfIn Config.params

/-- `0 <= value < 2^n` (30_encoding.md R81). -/
def Literal.inUnsignedRange (w : Width) : Literal → Bool
  | .dec v => decide (0 ≤ v) && decide (v < 2 ^ w.bits)
  | .hex n => decide (n < 2 ^ w.bits)

/-- `-2^(n-1) <= value < 2^(n-1)`; a hex literal is an n-bit pattern, so it must fit n bits (30_encoding.md R81). -/
def Literal.inSignedRange (w : Width) : Literal → Bool
  | .dec v => decide (-(2 ^ (w.bits - 1) : Int) ≤ v) && decide (v < 2 ^ (w.bits - 1))
  | .hex n => decide (n < 2 ^ w.bits)

/-- The value of the line is in range; a line without a value always is (30_encoding.md R81). -/
def AsmLine.wf : AsmLine → Bool
  | .encu w v => v.inUnsignedRange w
  | .encs w v => v.inSignedRange w
  | .decu _ | .decs _ => true

end Sys2Proof
end

