-- ==== Sys2Proof/Decode.lean ====
section
/-! DEFINITION. The decoder of an `Issue`, total on every command word; the encoder; the assembler and its listing
(30_encoding.md R74 to R82). -/

namespace Sys2Proof

/-- Why a command word spells no command (30_encoding.md R79; 00_scope.md R6 for the last). -/
inductive Reserved where
  | rsvBits
  | widthCode
  | widthNotBuilt
  deriving DecidableEq, Repr

/-- `cmd[1:0]` (30_encoding.md R74). -/
def opField (cmd : Command) : BitVec 2 := cmd.extractLsb' 0 2

/-- `cmd[4:2]` (30_encoding.md R74). -/
def widthField (cmd : Command) : BitVec 3 := cmd.extractLsb' 2 3

/-- `cmd[7:5]` (30_encoding.md R74). -/
def rsvField (cmd : Command) : BitVec 3 := cmd.extractLsb' 5 3

/-- The decoder of a block with parameters `p` (30_encoding.md R74 to R79). -/
def decodeIn (p : Params) (cmd : Command) (operand : Operand) : Except Reserved Instr :=
  if rsvField cmd ≠ 0 then .error .rsvBits
  else
    match Width.ofCode (widthField cmd) with
    | none => .error .widthCode
    | some w =>
      if p.widths.contains w then .ok (Instr.of (Op.ofCode (opField cmd)) w operand)
      else .error .widthNotBuilt

/-- The decoder of the block this spec specifies. -/
def decodeWord (cmd : Command) (operand : Operand) : Except Reserved Instr :=
  decodeIn Config.params cmd operand

/-- An instruction word of 136 bits, the command word in bits 7 to 0 and the operand above it, read as one number.
The spec gives the pair no common numbering: DESIGN CHOICE, log 9. -/
def decodeNumber (n : Nat) : Option Instr :=
  match decodeWord (BitVec.ofNat 8 n) (BitVec.ofNat 128 (n / 256)) with
  | .ok i => some i
  | .error _ => none

/-- The instruction of a table word of `nbits` bits, every bit above them zero. -/
def decodeTableWord (nbits w : Nat) : Option Instr := decodeNumber (w % 2 ^ nbits)

/-- `cmd = (WC << 2) | OP`, RSV = 0 (30_encoding.md R78). -/
def commandWord (o : Op) (w : Width) : Command := (0#3 ++ w.code) ++ o.code

/-- The `Issue` of a command: its command word and its operand (30_encoding.md R74, R78). -/
def encode (i : Instr) : Command × Operand := (commandWord i.op i.width, i.operand)

/-- The operand the assembler emits for an ENCU value: `zext_128(value)` (30_encoding.md R81). -/
def Literal.unsignedOperand : Literal → Operand
  | .dec v => BitVec.ofInt 128 v
  | .hex n => BitVec.ofNat 128 n

/-- The operand the assembler emits for an ENCS value: `sext_128(value)`, a hex literal read first as an n-bit
pattern (30_encoding.md R81). -/
def Literal.signedOperand (w : Width) : Literal → Operand
  | .dec v => BitVec.ofInt 128 v
  | .hex n => (BitVec.ofNat w.bits n).signExtend 128

/-- The command of an assembler line, its value already known to be in range; a decoder's operand is 0, as the
programs of 95_test_vectors.md list it. -/
def AsmLine.command : AsmLine → Instr
  | .encu w v => .of .encu w v.unsignedOperand
  | .encs w v => .of .encs w (v.signedOperand w)
  | .decu w => .of .decu w 0
  | .decs w => .of .decs w 0

/-- The assembler: the `Issue` of a line, or none where the value is out of range (30_encoding.md R81). -/
def assemble (l : AsmLine) : Option (Command × Operand) :=
  if l.wf then some (encode l.command) else none

/-- One hexadecimal digit. -/
def hexDigit (n : Nat) : Char :=
  if n < 10 then Char.ofNat (48 + n) else Char.ofNat (55 + n)

/-- The low `k` hexadecimal digits of `n`, most significant first. -/
def hexDigits : Nat → Nat → List Char
  | 0, _ => []
  | k + 1, n => hexDigits k (n / 16) ++ [hexDigit (n % 16)]

/-- A line of a listing: `cmd=0xHH operand=0x<32 hex digits>` (30_encoding.md R81). -/
def listing (issue : Command × Operand) : List Char :=
  ['c', 'm', 'd', '=', '0', 'x'] ++ hexDigits 2 issue.1.toNat ++
    [' ', 'o', 'p', 'e', 'r', 'a', 'n', 'd', '=', '0', 'x'] ++ hexDigits 32 issue.2.toNat

/-- The value of a digit in a base up to 16, either case (30_encoding.md R81). -/
def digitValue (base : Nat) (c : Char) : Option Nat :=
  let n := c.toNat
  let v :=
    if 48 ≤ n ∧ n ≤ 57 then n - 48
    else if 65 ≤ n ∧ n ≤ 70 then n - 55
    else if 97 ≤ n ∧ n ≤ 102 then n - 87
    else 16
  if v < base then some v else none

/-- Digits read left to right onto what has been read so far. -/
def readDigits (base : Nat) : Nat → List Char → Option Nat
  | acc, [] => some acc
  | acc, c :: cs =>
    match digitValue base c with
    | some v => readDigits base (acc * base + v) cs
    | none => none

/-- One or more digits. -/
def readNumber (base : Nat) : List Char → Option Nat
  | [] => none
  | c :: cs => readDigits base 0 (c :: cs)

/-- A decimal, perhaps negative, or a 0x-hex literal (30_encoding.md R81). -/
def readLiteral : List Char → Option Literal
  | '0' :: 'x' :: cs => (readNumber 16 cs).map .hex
  | '-' :: cs => (readNumber 10 cs).map fun n => .dec (-(n : Int))
  | cs => (readNumber 10 cs).map fun n => .dec (n : Int)

/-- The `n` of `.W<n>` (30_encoding.md R81). -/
def readWidth : List Char → Option Width
  | ['8'] => some .w8
  | ['1', '6'] => some .w16
  | ['3', '2'] => some .w32
  | ['6', '4'] => some .w64
  | ['1', '2', '8'] => some .w128
  | _ => none

/-- The text of a line up to a comment (30_encoding.md R81 writes one after `;`). -/
def beforeComment : List Char → List Char
  | [] => []
  | c :: cs => if c = ';' then [] else c :: beforeComment cs

/-- The words of a line, parted by blanks; the word being read is kept in reverse. -/
def splitWords : List Char → List Char → List (List Char)
  | [], [] => []
  | [], w => [w.reverse]
  | c :: cs, w =>
    if c = ' ' ∨ c = '\t' then
      match w with
      | [] => splitWords cs []
      | _ :: _ => w.reverse :: splitWords cs []
    else splitWords cs (c :: w)

/-- Assembler text to a line (30_encoding.md R81): the mnemonic, and for an encoder one value. Blanks part the words
(DESIGN CHOICE, log 10). -/
def readLine (text : List Char) : Option AsmLine :=
  match splitWords (beforeComment text) [] with
  | ['D' :: 'E' :: 'C' :: 'U' :: '.' :: 'W' :: ds] => (readWidth ds).map .decu
  | ['D' :: 'E' :: 'C' :: 'S' :: '.' :: 'W' :: ds] => (readWidth ds).map .decs
  | ['E' :: 'N' :: 'C' :: 'U' :: '.' :: 'W' :: ds, v] =>
    match readWidth ds, readLiteral v with
    | some w, some l => some (.encu w l)
    | _, _ => none
  | ['E' :: 'N' :: 'C' :: 'S' :: '.' :: 'W' :: ds, v] =>
    match readWidth ds, readLiteral v with
    | some w, some l => some (.encs w l)
    | _, _ => none
  | _ => none

end Sys2Proof
end

