-- ==== Sys2Proof/Machine/State.lean ====
section
/-! DEFINITION. The state: every register of 10_state.md, the two streams as the environment presents them, the
host's side of the command and result interfaces, and the reset state. -/

namespace Sys2Proof.Machine

/-- The five states STATE holds (10_state.md R21). -/
inductive Seq where
  | idle | encoding | reading | done | error
  deriving DecidableEq, Repr

/-- The four contents of STATUS (10_state.md R29). -/
inductive Status where
  | ok | overflow | truncated | ioFailure
  deriving DecidableEq, Repr

/-- A port, as ERRPORT names it (10_state.md R29). -/
inductive Port where
  | src | snk
  deriving DecidableEq, Repr

/-- What a source answers once its listed answers are used up: nothing ever again (20_memory.md R53), the same answer
each time, or answers of which nothing is known (Config.srcDraw). Log 5. -/
inductive SourceRest where
  | silent
  | always (a : SrcAnswer)
  | free
  deriving DecidableEq, Repr

/-- The same for a sink (Config.snkDraw). Log 5. -/
inductive SinkRest where
  | silent
  | always (a : SnkAnswer)
  | free
  deriving DecidableEq, Repr

/-- A byte source: the answers the environment gives, its position, and whether another running instance has it too
(20_memory.md R51, R64; 10_state.md R36). -/
structure Source where
  /-- The next answers, in order. -/
  listed : List SrcAnswer
  /-- What comes after them. -/
  rest : SourceRest
  /-- The index of the source's next byte (`SRC@p` of 95_test_vectors.md). -/
  pos : Nat
  /-- Another running instance uses this stream: not admitted (20_memory.md R64). -/
  shared : Bool
  deriving DecidableEq, Repr

/-- A byte sink: the bytes it holds, the answers the environment gives, and whether another running instance has it
too (20_memory.md R52, R64). -/
structure Sink where
  /-- The bytes it holds, the first one accepted first. -/
  bytes : List Byte
  /-- The next answers, in order. -/
  listed : List SnkAnswer
  /-- What comes after them. -/
  rest : SinkRest
  /-- Another running instance uses this stream: not admitted (20_memory.md R64). -/
  shared : Bool
  deriving DecidableEq, Repr

/-- The registers the host can read on the result interface (10_state.md R33). -/
inductive ResultReg where
  | state | status | count | result | errport | errinfo
  deriving DecidableEq, Repr

/-- A value returned on the result interface, at the register's width (10_state.md R21, R27 to R29). -/
inductive Readout where
  | state (code : BitVec 3)
  | status (code : BitVec 2)
  | count (n : BitVec 5)
  | result (v : Operand)
  | errport (code : BitVec 1)
  | errinfo (info : IoInfo)
  deriving DecidableEq, Repr

/-- What the host can do (70_reset_and_hazards.md R242, 20_memory.md R65). `letRun` is the host doing nothing while
the core takes one step: it places a later read or reset inside a command (log 4). -/
inductive HostAction where
  | issue (cmd : Command) (operand : Operand)
  | read (r : ResultReg)
  | reset
  | connectSource (x : Source)
  | connectSink (x : Sink)
  | routeSinkToSource
  | letRun
  deriving DecidableEq, Repr

/-- The whole machine. -/
structure State where
  /-- STATE (10_state.md R21). -/
  seq : Seq
  /-- OPR (10_state.md R23). -/
  opr : Op
  /-- WR (10_state.md R23). -/
  wr : Width
  /-- REM (10_state.md R24). -/
  rem : Operand
  /-- GIDX (10_state.md R25). -/
  gidx : BitVec 5
  /-- ACC (10_state.md R26). -/
  acc : Acc
  /-- COUNT (10_state.md R27). -/
  count : BitVec 5
  /-- RESULT (10_state.md R28). -/
  result : Operand
  /-- STATUS (10_state.md R29). -/
  status : Status
  /-- ERRPORT (10_state.md R29). -/
  errport : Port
  /-- ERRINFO (10_state.md R29). -/
  errinfo : IoInfo
  /-- SRC, the connected source (20_memory.md R50). -/
  src : Source
  /-- SNK, the connected sink (20_memory.md R50). -/
  snk : Sink
  /-- The command interface: the host's actions to come, the held `Issue` among them (10_state.md R30; log 4). -/
  host : List HostAction
  /-- The result interface: what the last read returned (10_state.md R33; log 4). -/
  readout : Option Readout
  /-- The model's own: how many free values have been used (log 3). -/
  draws : Nat
  deriving DecidableEq, Repr

/-- Why a step stops with a fault. -/
inductive Fault where
  /-- Raised by a read group step whose `SrcNext` the source never answers: the core has no step (20_memory.md R53,
  70_reset_and_hazards.md R238). Safe: nothing is claimed of what follows. -/
  | sourceSilent
  /-- Raised by an encode group step whose `SnkPut` the sink never answers: the core has no step (20_memory.md R53,
  70_reset_and_hazards.md R238). Safe: nothing is claimed of what follows. -/
  | sinkSilent
  /-- Raised by a host read of a result register outside the states in which it may be read (10_state.md R33).
  Safe: no stale value is returned. -/
  | unreadable (r : ResultReg)
  deriving DecidableEq, Repr

/-- Why a step is refused; a refused step changes no register. -/
inductive Refusal where
  /-- Raised by an arm of `exec` for a command that has no meaning yet. Safe: nothing is claimed of it. -/
  | notModelled (mnemonic : String)
  /-- Raised by an `Issue` of a word that spells no command (30_encoding.md R79). Safe: it has no meaning. -/
  | reservedWord (cmd : Command) (why : Reserved)
  /-- Raised by the acceptance of a command while another running instance shares one of this instance's streams
  (20_memory.md R64, 70_reset_and_hazards.md R236). Safe: the configuration has no meaning. -/
  | sharedStream
  /-- Raised by the host changing a stream while a command runs (70_reset_and_hazards.md R236, R242). Safe: the
  configuration has no meaning. -/
  | streamChangedWhileRunning
  deriving DecidableEq, Repr

/-- What one step answers. -/
abbrev Result := Host.Outcome State Fault Refusal

/-- A source of this instance alone of which nothing is known (70_reset_and_hazards.md R231; log 5). -/
def Source.unknown : Source := { listed := [], rest := .free, pos := 0, shared := false }

/-- An empty sink of this instance alone of whose answers nothing is known (70_reset_and_hazards.md R231; log 5). -/
def Sink.unknown : Sink := { bytes := [], listed := [], rest := .free, shared := false }

/-- The machine right after reset (70_reset_and_hazards.md R230, R243). The spec fixes STATE alone; every other
register holds the value log 1 names, and no result register may be read (10_state.md R33). -/
def State.reset : State :=
  { seq := .idle
    opr := .encu
    wr := .w8
    rem := 0
    gidx := 0
    acc := 0
    count := 0
    result := 0
    status := .ok
    errport := .src
    errinfo := ⟨0⟩
    src := Source.unknown
    snk := Sink.unknown
    host := []
    readout := none
    draws := 0 }

end Sys2Proof.Machine
end

