-- ==== Sys2Proof/Machine/Ops.lean ====
section
/-! DEFINITION. The named operations over the state: the two ports, the acceptance of a command, its ends (`finish`
and `raise`), the two shared group steps, the result interface, reset, and the host's stream connections. -/

namespace Sys2Proof.Machine

/-! ### Codes of the registers the host reads -/

/-- The codes of STATE (10_state.md R21). -/
def Seq.code : Seq → BitVec 3
  | .idle => 0
  | .encoding => 1
  | .reading => 2
  | .done => 3
  | .error => 4

/-- The codes of STATUS (10_state.md R29). -/
def Status.code : Status → BitVec 2
  | .ok => 0
  | .overflow => 1
  | .truncated => 2
  | .ioFailure => 3

/-- The codes of ERRPORT (10_state.md R29). -/
def Port.code : Port → BitVec 1
  | .src => 0
  | .snk => 1

/-! ### Sequencing -/

/-- The states in which a command runs: ENCODING and READING (10_state.md R30). -/
def Seq.busy : Seq → Bool
  | .encoding | .reading => true
  | .idle | .done | .error => false

/-- The state in which a command of this operation runs (10_state.md R21). -/
def runningSeq (o : Op) : Seq := if o.isEncoder then .encoding else .reading

/-- A command of operation `o` at width `w` is running (40 R101, 41 R131, 42 R161, R171). -/
def State.isRunning (o : Op) (w : Width) (s : State) : Bool :=
  s.seq == runningSeq o && s.opr == o && s.wr == w

/-- The source and the sink are this instance's alone (70_reset_and_hazards.md R236). -/
def State.ownsStreams (s : State) : Bool := !s.src.shared && !s.snk.shared

/-! ### The byte source and the byte sink -/

/-- The source after it has given an answer: past the byte if it was one (20_memory.md R51, R56). -/
def Source.answered (a : SrcAnswer) (x : Source) : Source :=
  match a with
  | .byte _ => { x with pos := x.pos + 1 }
  | .endOfInput | .fail _ => x

/-- One `SrcNext()` transaction, its answer and the state after it; none where the source never answers
(20_memory.md R51, R53). -/
def srcNext (s : State) : Option (SrcAnswer × State) :=
  match s.src.listed with
  | a :: more => some (a, { s with src := Source.answered a { s.src with listed := more } })
  | [] =>
    match s.src.rest with
    | .silent => none
    | .always a => some (a, { s with src := Source.answered a s.src })
    | .free =>
      some (Config.srcDraw s.draws,
        { s with src := Source.answered (Config.srcDraw s.draws) s.src, draws := s.draws + 1 })

/-- The state after the sink has answered a put of `b`: an accepted byte is appended; of a failed put the sink keeps
a free value (20_memory.md R52, R56; log 6). -/
def sinkAnswered (a : SnkAnswer) (b : Byte) (s : State) : State :=
  match a with
  | .ok => { s with snk := { s.snk with bytes := s.snk.bytes ++ [b] } }
  | .fail _ =>
    { s with
      snk := { s.snk with bytes := s.snk.bytes ++ (Config.failedPutLeft s.draws b).toList }
      draws := s.draws + 1 }

/-- One `SnkPut(b)` transaction, its answer and the state after it; none where the sink never answers
(20_memory.md R52, R53). -/
def snkPut (b : Byte) (s : State) : Option (SnkAnswer × State) :=
  match s.snk.listed with
  | a :: more => some (a, sinkAnswered a b { s with snk := { s.snk with listed := more } })
  | [] =>
    match s.snk.rest with
    | .silent => none
    | .always a => some (a, sinkAnswered a b s)
    | .free => some (Config.snkDraw s.draws, sinkAnswered (Config.snkDraw s.draws) b { s with draws := s.draws + 1 })

/-! ### The end of a command -/

/-- Error entry for Overflow (60_exceptions.md R204). -/
def State.raiseOverflow (s : State) : State := { s with status := .overflow, seq := .error }

/-- Error entry for Truncated (60_exceptions.md R204). -/
def State.raiseTruncated (s : State) : State := { s with status := .truncated, seq := .error }

/-- Error entry for IOFailure: the port and its report are recorded unchanged (60_exceptions.md R204, R203). -/
def State.raiseIoFailure (p : Port) (info : IoInfo) (s : State) : State :=
  { s with status := .ioFailure, errport := p, errinfo := info, seq := .error }

/-- `finish(count)`: the end of an encode; RESULT is not written (40_uleb128_encoder.md R102). -/
def State.finishEncode (count : BitVec 5) (s : State) : State :=
  { s with count := count, status := .ok, seq := .done }

/-- `finish_dec(value, count)`: the end of a decode (41_uleb128_decoder.md R134). -/
def State.finishDecode (value : Operand) (count : BitVec 5) (s : State) : State :=
  { s with result := value, count := count, status := .ok, seq := .done }

/-! ### Acceptance -/

/-- The registers a command's acceptance writes (10_state.md R31). From ERROR this is also the return from the error
(60_exceptions.md R208). -/
def State.start (o : Op) (w : Width) (x : Operand) (s : State) : State :=
  match o with
  | .encu => { s with opr := .encu, wr := w, gidx := 0, rem := zextOperand w x, seq := .encoding }
  | .encs => { s with opr := .encs, wr := w, gidx := 0, rem := sextOperand w x, seq := .encoding }
  | .decu => { s with opr := .decu, wr := w, gidx := 0, acc := 0, seq := .reading }
  | .decs => { s with opr := .decs, wr := w, gidx := 0, acc := 0, seq := .reading }

/-- The acceptance of a command, refused where a stream is shared (10_state.md R31, 20_memory.md R64). -/
def accept (o : Op) (w : Width) (x : Operand) (s : State) : Result :=
  if s.ownsStreams then .next (s.start o w x) else .refused .sharedStream

/-- One step of a command: from IDLE, DONE or ERROR its acceptance; while it runs, its next group step. Presented
while another command runs it is held: nothing changes (10_state.md R30, 70_reset_and_hazards.md R234). -/
def command (o : Op) (w : Width) (x : Operand) (groupStep : State → Result) (s : State) : Result :=
  if s.seq.busy then
    if s.isRunning o w then groupStep s else .next s
  else accept o w x s

/-! ### The two shared group steps -/

/-- The encoders' group step from the shifted REM, the `last` test and the byte: one `SnkPut`, and the end of the
command after the last byte (40_uleb128_encoder.md R101, R102, R106; 42_sleb128.md R161, R162). GIDX advances on the
last group too, as R101 writes it, so an encode of 19 groups leaves 19; the bound of 10_state.md R25 is read as that of
the group a next step emits or reads: DEDUCED, unsafe only for a claim about GIDX itself after an encode, log 19. -/
def emitGroup (shifted : Operand) (last : Bool) (b : Byte) (s : State) : Result :=
  match snkPut b { s with rem := shifted } with
  | none => .fault .sinkSilent
  | some (.fail info, t) => .next (t.raiseIoFailure .snk info)
  | some (.ok, t) =>
    if last then .next (({ t with gidx := t.gidx + 1 } : State).finishEncode (t.gidx + 1))
    else .next { t with gidx := t.gidx + 1 }

/-- The decoders' read step: one `SrcNext`; a byte's payload is placed in ACC and the byte judged by `onByte`
(41_uleb128_decoder.md R131, R135, R136; 42_sleb128.md R171). -/
def readGroup (onByte : Byte → State → Result) (s : State) : Result :=
  match srcNext s with
  | none => .fault .sourceSilent
  | some (.endOfInput, t) => .next t.raiseTruncated
  | some (.fail info, t) => .next (t.raiseIoFailure .src info)
  | some (.byte b, t) => onByte b { t with acc := accWrite t.acc t.gidx.toNat (payload b) }

/-! ### The result interface -/

/-- RESULT holds a value of the last command: DECU and DECS write it, the encoders do not (10_state.md R28, R33). -/
def State.readable (r : ResultReg) (s : State) : Bool :=
  match r with
  | .state => true
  | .status => s.seq == .done || s.seq == .error
  | .count => s.seq == .done
  | .result => s.seq == .done && !s.opr.isEncoder
  | .errport | .errinfo => s.seq == .error && s.status == .ioFailure

/-- The contents of a register the host reads (10_state.md R21, R27 to R29). -/
def State.valueOf (r : ResultReg) (s : State) : Readout :=
  match r with
  | .state => .state s.seq.code
  | .status => .status s.status.code
  | .count => .count s.count
  | .result => .result s.result
  | .errport => .errport s.errport.code
  | .errinfo => .errinfo s.errinfo

/-- A host read: the value where the register may be read, a fault where it may not (10_state.md R33). -/
def readRegister (r : ResultReg) (s : State) : Result :=
  if s.readable r then .next { s with readout := some (s.valueOf r) } else .fault (.unreadable r)

/-! ### Reset -/

/-- The source after the pending `SrcNext` at a reset used up its answer: past the byte, unless the answer that was
coming moved none (70_reset_and_hazards.md R232; log 7). -/
def Source.movedAtReset (x : Source) : Source :=
  match x.listed, x.rest with
  | a :: more, _ => Source.answered a { x with listed := more }
  | [], .always a => Source.answered a x
  | [], .silent | [], .free => { x with pos := x.pos + 1 }

/-- The sink after the pending `SnkPut(b)` at a reset took the byte (70_reset_and_hazards.md R232; log 7). -/
def Sink.movedAtReset (b : Byte) (x : Sink) : Sink :=
  { x with bytes := x.bytes ++ [b], listed := x.listed.tail }

/-- The byte an encoder has pending at a port: that of its next group step (40 R101, 42 R161). -/
def pendingByte (s : State) : Byte :=
  match s.opr with
  | .encs => encsByte s.rem
  | .encu | .decu | .decs => encuByte s.rem

/-- The streams after a reset inside a command: the pending transaction moved its byte or it did not, a free value
(70_reset_and_hazards.md R232; log 7). -/
def abandon (s : State) : State :=
  if Config.pendingMoved s.draws then
    match s.seq with
    | .encoding => { s with snk := s.snk.movedAtReset (pendingByte s), draws := s.draws + 1 }
    | .reading => { s with src := s.src.movedAtReset, draws := s.draws + 1 }
    | .idle | .done | .error => s
  else { s with draws := s.draws + 1 }

/-- The reset port: the registers as after reset; the streams are not touched, but for a transaction pending in an
abandoned command (70_reset_and_hazards.md R230 to R232). -/
def applyReset (s : State) : State :=
  let t := if s.seq.busy then abandon s else s
  { State.reset with src := t.src, snk := t.snk, host := t.host, readout := t.readout, draws := t.draws }

/-! ### Streams -/

/-- A source that holds the bytes of this instance's sink, then End (20_memory.md R65). -/
def Sink.asSource (x : Sink) : Source :=
  { listed := x.bytes.map .byte, rest := .always .endOfInput, pos := 0, shared := false }

/-- The host connects or changes a stream, which it may do only while no command runs
(70_reset_and_hazards.md R233, R236, R242). -/
def changeStreams (f : State → State) (s : State) : Result :=
  if s.seq.busy then .refused .streamChangedWhileRunning else .next (f s)

end Sys2Proof.Machine
end

