-- ==== Sys2Proof/Machine/Decs.lean ====
section
/-! DEFINITION. DECS.W8 to DECS.W128, decode signed (42_sleb128.md R170 to R179). -/

namespace Sys2Proof.Machine

/-- What DECS does with a byte whose payload has been placed: the group bound, or the sign extension and the overflow
detector (42_sleb128.md R171 to R174). The bound depends on SLEB_EXTRA_GROUP (00_scope.md R8). -/
def decsByte (p : Params) (w : Width) (b : Byte) (s : State) : Result :=
  if contBit b then
    if atBound s.gidx.toNat (w.signedGroups p) then .next s.raiseOverflow
    else .next { s with gidx := s.gidx + 1 }
  else if fitsS w (sextAcc s.acc (s.gidx.toNat + 1)) then
    .next (s.finishDecode (signedResult w (sextAcc s.acc (s.gidx.toNat + 1))) (s.gidx + 1))
  else .next s.raiseOverflow

/-- The DECS read step (42_sleb128.md R171). -/
def decsGroupStep (p : Params) (w : Width) (s : State) : Result := readGroup (decsByte p w) s

/-- DECS.W8 (42_sleb128.md R170). -/
def execDecsW8 (operand : Operand) (s : State) : Result := command .decs .w8 operand (decsGroupStep Config.params .w8) s

/-- DECS.W16 (42_sleb128.md R170). -/
def execDecsW16 (operand : Operand) (s : State) : Result := command .decs .w16 operand (decsGroupStep Config.params .w16) s

/-- DECS.W32 (42_sleb128.md R170). -/
def execDecsW32 (operand : Operand) (s : State) : Result := command .decs .w32 operand (decsGroupStep Config.params .w32) s

/-- DECS.W64 (42_sleb128.md R170). -/
def execDecsW64 (operand : Operand) (s : State) : Result := command .decs .w64 operand (decsGroupStep Config.params .w64) s

/-- DECS.W128 (42_sleb128.md R170). -/
def execDecsW128 (operand : Operand) (s : State) : Result := command .decs .w128 operand (decsGroupStep Config.params .w128) s

end Sys2Proof.Machine
end

