-- ==== Sys2Proof/Machine/Decu.lean ====
section
/-! DEFINITION. DECU.W8 to DECU.W128, decode unsigned (41_uleb128_decoder.md R130 to R141). -/

namespace Sys2Proof.Machine

/-- What DECU does with a byte whose payload has been placed: the payload test, the group bound, or the end
(41_uleb128_decoder.md R131 to R134). -/
def decuByte (w : Width) (b : Byte) (s : State) : Result :=
  if payloadOverflow w s.acc then .next s.raiseOverflow
  else if contBit b then
    if atBound s.gidx.toNat w.groups then .next s.raiseOverflow
    else .next { s with gidx := s.gidx + 1 }
  else .next (s.finishDecode (unsignedResult w s.acc) (s.gidx + 1))

/-- The DECU read step (41_uleb128_decoder.md R131). -/
def decuGroupStep (w : Width) (s : State) : Result := readGroup (decuByte w) s

/-- DECU.W8 (41_uleb128_decoder.md R130). -/
def execDecuW8 (operand : Operand) (s : State) : Result := command .decu .w8 operand (decuGroupStep .w8) s

/-- DECU.W16 (41_uleb128_decoder.md R130). -/
def execDecuW16 (operand : Operand) (s : State) : Result := command .decu .w16 operand (decuGroupStep .w16) s

/-- DECU.W32 (41_uleb128_decoder.md R130). -/
def execDecuW32 (operand : Operand) (s : State) : Result := command .decu .w32 operand (decuGroupStep .w32) s

/-- DECU.W64 (41_uleb128_decoder.md R130). -/
def execDecuW64 (operand : Operand) (s : State) : Result := command .decu .w64 operand (decuGroupStep .w64) s

/-- DECU.W128 (41_uleb128_decoder.md R130). -/
def execDecuW128 (operand : Operand) (s : State) : Result := command .decu .w128 operand (decuGroupStep .w128) s

end Sys2Proof.Machine
end

