-- ==== Sys2Proof/Machine/Encs.lean ====
section
/-! DEFINITION. ENCS.W8 to ENCS.W128, encode signed (42_sleb128.md R160 to R165). -/

namespace Sys2Proof.Machine

/-- The ENCS group step (42_sleb128.md R161). -/
def encsGroupStep (s : State) : Result :=
  emitGroup (shiftSigned s.rem) (encsLast (shiftSigned s.rem) (lowGroup s.rem)) (encsByte s.rem) s

/-- ENCS.W8 (42_sleb128.md R160). -/
def execEncsW8 (operand : Operand) (s : State) : Result := command .encs .w8 operand encsGroupStep s

/-- ENCS.W16 (42_sleb128.md R160). -/
def execEncsW16 (operand : Operand) (s : State) : Result := command .encs .w16 operand encsGroupStep s

/-- ENCS.W32 (42_sleb128.md R160). -/
def execEncsW32 (operand : Operand) (s : State) : Result := command .encs .w32 operand encsGroupStep s

/-- ENCS.W64 (42_sleb128.md R160). -/
def execEncsW64 (operand : Operand) (s : State) : Result := command .encs .w64 operand encsGroupStep s

/-- ENCS.W128 (42_sleb128.md R160). -/
def execEncsW128 (operand : Operand) (s : State) : Result := command .encs .w128 operand encsGroupStep s

end Sys2Proof.Machine
end

