-- ==== Sys2Proof/Machine/Encu.lean ====
section
/-! DEFINITION. ENCU.W8 to ENCU.W128, encode unsigned (40_uleb128_encoder.md R100 to R107). -/

namespace Sys2Proof.Machine

/-- The ENCU group step (40_uleb128_encoder.md R101). -/
def encuGroupStep (s : State) : Result :=
  emitGroup (shiftUnsigned s.rem) (encuLast (shiftUnsigned s.rem)) (encuByte s.rem) s

/-- ENCU.W8 (40_uleb128_encoder.md R100). -/
def execEncuW8 (operand : Operand) (s : State) : Result := command .encu .w8 operand encuGroupStep s

/-- ENCU.W16 (40_uleb128_encoder.md R100). -/
def execEncuW16 (operand : Operand) (s : State) : Result := command .encu .w16 operand encuGroupStep s

/-- ENCU.W32 (40_uleb128_encoder.md R100). -/
def execEncuW32 (operand : Operand) (s : State) : Result := command .encu .w32 operand encuGroupStep s

/-- ENCU.W64 (40_uleb128_encoder.md R100). -/
def execEncuW64 (operand : Operand) (s : State) : Result := command .encu .w64 operand encuGroupStep s

/-- ENCU.W128 (40_uleb128_encoder.md R100). -/
def execEncuW128 (operand : Operand) (s : State) : Result := command .encu .w128 operand encuGroupStep s

end Sys2Proof.Machine
end

