-- ==== Sys2Proof/Machine/Dispatch.lean ====
section
/-! DEFINITION. One step of a command: its acceptance, or its next group step (00_scope.md R14). -/

namespace Sys2Proof.Machine

def exec (i : Instr) (s : State) : Host.Outcome State Fault Refusal :=
  match i with
  | .encuW8 operand => Sys2Proof.Machine.execEncuW8 operand s
  | .encuW16 operand => Sys2Proof.Machine.execEncuW16 operand s
  | .encuW32 operand => Sys2Proof.Machine.execEncuW32 operand s
  | .encuW64 operand => Sys2Proof.Machine.execEncuW64 operand s
  | .encuW128 operand => Sys2Proof.Machine.execEncuW128 operand s
  | .encsW8 operand => Sys2Proof.Machine.execEncsW8 operand s
  | .encsW16 operand => Sys2Proof.Machine.execEncsW16 operand s
  | .encsW32 operand => Sys2Proof.Machine.execEncsW32 operand s
  | .encsW64 operand => Sys2Proof.Machine.execEncsW64 operand s
  | .encsW128 operand => Sys2Proof.Machine.execEncsW128 operand s
  | .decuW8 operand => Sys2Proof.Machine.execDecuW8 operand s
  | .decuW16 operand => Sys2Proof.Machine.execDecuW16 operand s
  | .decuW32 operand => Sys2Proof.Machine.execDecuW32 operand s
  | .decuW64 operand => Sys2Proof.Machine.execDecuW64 operand s
  | .decuW128 operand => Sys2Proof.Machine.execDecuW128 operand s
  | .decsW8 operand => Sys2Proof.Machine.execDecsW8 operand s
  | .decsW16 operand => Sys2Proof.Machine.execDecsW16 operand s
  | .decsW32 operand => Sys2Proof.Machine.execDecsW32 operand s
  | .decsW64 operand => Sys2Proof.Machine.execDecsW64 operand s
  | .decsW128 operand => Sys2Proof.Machine.execDecsW128 operand s

end Sys2Proof.Machine
end

