-- ==== Sys2Proof/Machine/HostPort.lean ====
section
/-! DEFINITION. What one step of the machine is: the host's next action, or a step of the running command
(70_reset_and_hazards.md R234, R242). -/

namespace Sys2Proof.Machine

/-- A step of the core by itself: the running command's next step, or, with none running, a wait for the next `Issue`
(70_reset_and_hazards.md R231). -/
def coreStep (s : State) : Result :=
  if s.seq.busy then exec (Instr.of s.opr s.wr 0) s else .next s

/-- An `Issue` taken while no command runs: the command's acceptance, or the refusal of a reserved word
(10_state.md R30, 30_encoding.md R79). -/
def issue (cmd : Command) (operand : Operand) (s : State) : Result :=
  match decodeWord cmd operand with
  | .ok i => exec i s
  | .error why => .refused (.reservedWord cmd why)

/-- What the host's action `a` does, once it is off the host's list in `s` (70_reset_and_hazards.md R242). -/
def hostAct (a : HostAction) (s : State) : Result :=
  match a with
  | .issue cmd operand => issue cmd operand s
  | .read r => readRegister r s
  | .reset => .next (applyReset s)
  | .connectSource x => changeStreams (fun t => { t with src := x }) s
  | .connectSink x => changeStreams (fun t => { t with snk := x }) s
  | .routeSinkToSource => changeStreams (fun t => { t with src := t.snk.asSource }) s
  | .letRun => coreStep s

/-- The next action is an `Issue`, which a running command keeps held (70_reset_and_hazards.md R234). -/
def State.issueHeld (s : State) : Bool :=
  match s.host with
  | .issue _ _ :: _ => s.seq.busy
  | _ => false

/-- One step: the host's next action if it has one, else the core by itself; while an `Issue` is held, the running
command's next step. -/
def machineStep (s : State) : Result :=
  if s.issueHeld then coreStep s
  else
    match s.host with
    | [] => coreStep s
    | a :: more => hostAct a { s with host := more }

/-- `s` with the `Issue` of this instruction word as the host's next action, and no command running to hold it: log 9. -/
def placeIssue (n : Nat) (s : State) : State :=
  { s with
    seq := if s.seq.busy then .idle else s.seq
    host := .issue (BitVec.ofNat 8 n) (BitVec.ofNat 128 (n / 256)) :: s.host }

end Sys2Proof.Machine
end

