-- ==== Sys2Proof/Machine/Step.lean ====
section
/-! DEFINITION. The step of the machine, and the placing of one instruction where the step takes its next one. -/

namespace Sys2Proof.Machine

/-- One step of the machine (00_scope.md R14, 70_reset_and_hazards.md R242). -/
def step (s : State) : Host.Outcome State Fault Refusal := machineStep s

/-- `s` with the instruction word as the host's next `Issue`: the block fetches from no memory (10_state.md R22). -/
def State.withFetchWord (s : State) (nbits w : Nat) : State := placeIssue (w % 2 ^ nbits) s

end Sys2Proof.Machine
end

