-- ==== Sys2Proof/Safety.lean ====
section
/-! DEFINITION. The terms claims use: the launch premises and the end of a run, what a group sequence stands for, and
the invariant of the registers. -/

namespace Sys2Proof.Machine

/-! ### Runs (70_reset_and_hazards.md R241, R243) -/

/-- `afterReset`: STATE = IDLE and no other register can be read (R243). -/
def State.afterReset (s : State) : Bool :=
  s.seq == .idle &&
    [ResultReg.status, .count, .result, .errport, .errinfo].all fun r => !s.readable r

/-- `nothingInFlight`: no port transaction is pending, since no command runs (R243). -/
def State.nothingInFlight (s : State) : Bool := !s.seq.busy

/-- `srcContents`: the source holds these bytes, possibly followed by End; after them it gives End or no answer
(R243). -/
def State.srcContents (bytes : List Byte) (s : State) : Prop :=
  ∃ ends : List SrcAnswer, (∀ a ∈ ends, a = .endOfInput) ∧ s.src.listed = bytes.map .byte ++ ends ∧
    (s.src.rest = .silent ∨ s.src.rest = .always .endOfInput)

/-- A further `Issue` of the host. -/
def HostAction.isIssue : HostAction → Bool
  | .issue _ _ => true
  | _ => false

/-- The run is over: no further command to issue, and none running (R241). -/
def State.runOver (s : State) : Bool := !s.seq.busy && !s.host.any HostAction.isIssue

/-- The final state of a run: the registers the host may read, the sink's bytes and the source's position (R241). -/
def State.finalView (s : State) : List Readout × List Byte × Nat :=
  (([ResultReg.state, .status, .count, .result, .errport, .errinfo].filter fun r => s.readable r).map s.valueOf,
    s.snk.bytes, s.src.pos)

/-- The sink accepts every put. -/
def State.sinkAccepts (s : State) : Prop := s.snk.listed = [] ∧ s.snk.rest = .always .ok

/-- Both ports always answer (the premise of 70_reset_and_hazards.md R238). -/
def State.portsAnswer (s : State) : Prop := s.src.rest ≠ .silent ∧ s.snk.rest ≠ .silent

/-! ### The wire format (30_encoding.md R70 to R73, R77) -/

/-- Every group but the last has its continuation bit set, the last has it clear, and there is at least one (R72). -/
def groupsWf : List Byte → Prop
  | [] => False
  | [b] => b.toNat < 128
  | b :: more => 128 ≤ b.toNat ∧ groupsWf more

/-- Every byte has its continuation bit set. -/
def allContinue (bytes : List Byte) : Prop := ∀ b ∈ bytes, 128 ≤ b.toNat

/-- The unsigned value of the payloads, group k at bit offset 7k (R71). -/
def groupsValue : List Byte → Nat
  | [] => 0
  | b :: more => b.toNat % 128 + 128 * groupsValue more

/-- The signed value of the payloads: bit 6 of the last group is the sign (R71, R77). -/
def groupsSigned : List Byte → Int
  | [] => 0
  | [b] => if b.toNat % 128 < 64 then (b.toNat % 128 : Nat) else ((b.toNat % 128 : Nat) : Int) - 128
  | b :: more => ((b.toNat % 128 : Nat) : Int) + 128 * groupsSigned more

/-- The length of rule R103: the smallest n ≥ 1 with v < 2^(7n). -/
def isUlebLength (v n : Nat) : Prop := 1 ≤ n ∧ v < 2 ^ (7 * n) ∧ ∀ m, 1 ≤ m → v < 2 ^ (7 * m) → n ≤ m

/-- The length of rule R163: the smallest n ≥ 1 with -2^(7n-1) ≤ v < 2^(7n-1). -/
def isSlebLength (v : Int) (n : Nat) : Prop :=
  1 ≤ n ∧ (-(2 ^ (7 * n - 1) : Int) ≤ v ∧ v < 2 ^ (7 * n - 1)) ∧
    ∀ m : Nat, 1 ≤ m → -(2 ^ (7 * m - 1) : Int) ≤ v → v < 2 ^ (7 * m - 1) → n ≤ m

/-! ### The invariant of the registers -/

/-- While an encoder runs, REM holds what is left of a W-bit value after GIDX groups, so the bound N(W) is kept
(10_state.md R24, R25; 40 R103; 42 R163). -/
def State.encodingInv (s : State) : Prop :=
  s.gidx.toNat < s.wr.groups ∧
    match s.opr with
    | .encu => s.rem.toNat < 2 ^ (s.wr.bits - 7 * s.gidx.toNat)
    | .encs =>
      -(2 ^ (s.wr.bits - 1 - 7 * s.gidx.toNat) : Int) ≤ s.rem.toInt ∧
        s.rem.toInt < 2 ^ (s.wr.bits - 1 - 7 * s.gidx.toNat)
    | .decu | .decs => False

/-- While a decoder runs, ACC is still zero at the group to come and above it (10_state.md R25, R26). -/
def State.readingInv (s : State) : Prop :=
  s.acc.toNat < 2 ^ (7 * s.gidx.toNat) ∧
    match s.opr with
    | .decu => s.gidx.toNat < s.wr.groups
    | .decs => s.gidx.toNat < s.wr.signedGroups Config.params
    | .encu | .encs => False

/-- The group bound of the command in OPR and WR: NS(W) for DECS, N(W) for the others (00_scope.md R7, R8). -/
def State.groupBound (s : State) : Nat :=
  match s.opr with
  | .decs => s.wr.signedGroups Config.params
  | .encu | .encs | .decu => s.wr.groups

/-- After a success: STATUS is OK, COUNT is a byte count the width admits, GIDX is COUNT after an encode and the index
of the last group after a decode, and RESULT is the extension of its low W bits (10_state.md R25, R27, R28; 40 R101; 41
R134; 42 R162; 60 R200; log 19). -/
def State.doneInv (s : State) : Prop :=
  s.status = .ok ∧ 1 ≤ s.count.toNat ∧ s.count.toNat ≤ s.groupBound ∧
    match s.opr with
    | .encu | .encs => s.gidx = s.count
    | .decu => s.gidx + 1 = s.count ∧ s.result = zextOperand s.wr s.result
    | .decs => s.gidx + 1 = s.count ∧ s.result = sextOperand s.wr s.result

/-- After a failure: GIDX is the group it failed at, STATUS holds the one error, Overflow and Truncated are a decoder's, and an I/O failure is of the
port the command uses (10_state.md R25; 60_exceptions.md R200 to R205). -/
def State.errorInv (s : State) : Prop :=
  s.gidx.toNat < s.groupBound ∧
    match s.status with
    | .ok => False
    | .overflow | .truncated => s.opr.isEncoder = false
    | .ioFailure => s.errport = if s.opr.isEncoder then .snk else .src

/-- The registers are those of a machine that has only ever stepped: by STATE, the facts above. -/
def State.Inv (s : State) : Prop :=
  match s.seq with
  | .idle => True
  | .encoding => s.encodingInv
  | .reading => s.readingInv
  | .done => s.doneInv
  | .error => s.errorInv

end Sys2Proof.Machine
end

