-- ==== Sys2Proof/Certificates/Slice0/Obligations.lean ====
section
/-! DEFINITION. The statements for the provers. Each says which rule of spec/ it formalises. A statement about
`Instr.of o w x` with `w` free is about the five commands of operation `o`, at W = 8, 16, 32, 64 and 128. -/

open Sys2Proof Sys2Proof.Machine

/-! ### Encodings -/

/-- R74, R75, R78: a command word has one meaning, and every instruction has one word. A pair of a command word and an
operand decodes to an instruction exactly when it is that instruction's encoding. -/
def Obligations.DecodeAndEncodeAgree : Prop :=
  ∀ (cmd : Command) (x : Operand) (i : Instr), decodeWord cmd x = .ok i ↔ encode i = (cmd, x)

/-- R78: the 20 words of the opcode map, as the map writes them, with any operand. -/
def Obligations.OpcodeMapDecodes : Prop :=
  ∀ x : Operand,
    (decodeWord 0x00 x = .ok (.encuW8 x) ∧ decodeWord 0x04 x = .ok (.encuW16 x) ∧
      decodeWord 0x08 x = .ok (.encuW32 x) ∧ decodeWord 0x0C x = .ok (.encuW64 x) ∧
      decodeWord 0x10 x = .ok (.encuW128 x)) ∧
    (decodeWord 0x01 x = .ok (.encsW8 x) ∧ decodeWord 0x05 x = .ok (.encsW16 x) ∧
      decodeWord 0x09 x = .ok (.encsW32 x) ∧ decodeWord 0x0D x = .ok (.encsW64 x) ∧
      decodeWord 0x11 x = .ok (.encsW128 x)) ∧
    (decodeWord 0x02 x = .ok (.decuW8 x) ∧ decodeWord 0x06 x = .ok (.decuW16 x) ∧
      decodeWord 0x0A x = .ok (.decuW32 x) ∧ decodeWord 0x0E x = .ok (.decuW64 x) ∧
      decodeWord 0x12 x = .ok (.decuW128 x)) ∧
    (decodeWord 0x03 x = .ok (.decsW8 x) ∧ decodeWord 0x07 x = .ok (.decsW16 x) ∧
      decodeWord 0x0B x = .ok (.decsW32 x) ∧ decodeWord 0x0F x = .ok (.decsW64 x) ∧
      decodeWord 0x13 x = .ok (.decsW128 x))

/-- R79: the words with WC ∈ {5,6,7} or RSV ≠ 0, and no others, are reserved; there are 236 of them; the `Issue` of
one, taken when no command runs, is refused with no state after it. -/
def Obligations.ReservedWordsAreRefused : Prop :=
  (∀ (cmd : Command) (x : Operand),
    (∃ why, decodeWord cmd x = .error why) ↔ (5 ≤ cmd.toNat / 4 % 8 ∨ cmd.toNat / 32 ≠ 0)) ∧
  ((List.range 256).filter fun n => decide (5 ≤ n / 4 % 8 ∨ n / 32 ≠ 0)).length = 236 ∧
  ∀ (s : State) (cmd : Command) (x : Operand) (more : List HostAction),
    s.seq.busy = false → s.host = .issue cmd x :: more → (5 ≤ cmd.toNat / 4 % 8 ∨ cmd.toNat / 32 ≠ 0) →
    ∃ why, step s = .refused (.reservedWord cmd why)

/-- R6: the block is built with all five widths; a block built with fewer refuses the words of the others like a
reserved word, and decodes no others: whatever its widths, it refuses the words with WC ∈ {5,6,7} or RSV ≠ 0, and what
it decodes is a command of one of its widths. -/
def Obligations.WidthsAreAParameter : Prop :=
  Config.params.widths = [.w8, .w16, .w32, .w64, .w128] ∧
  ∀ (p : Params) (x : Operand),
    (∀ (o : Op) (w : Width),
      (w ∈ p.widths → decodeIn p (commandWord o w) x = .ok (.of o w x)) ∧
      (w ∉ p.widths → decodeIn p (commandWord o w) x = .error .widthNotBuilt)) ∧
    (∀ cmd : Command, (5 ≤ cmd.toNat / 4 % 8 ∨ cmd.toNat / 32 ≠ 0) → ∃ why, decodeIn p cmd x = .error why) ∧
    ∀ (cmd : Command) (i : Instr), decodeIn p cmd x = .ok i → i.width ∈ p.widths ∧ encode i = (cmd, x)

/-- R7: W, N(W), 7·N(W) and the group that holds bit W-1, for each width. -/
def Obligations.GroupBounds : Prop :=
  [Width.w8, .w16, .w32, .w64, .w128].map (fun w => (w.bits, w.groups, 7 * w.groups, (w.bits - 1) / 7)) =
    [(8, 2, 14, 1), (16, 3, 21, 2), (32, 5, 35, 4), (64, 10, 70, 9), (128, 19, 133, 18)]

/-- R81: the assembler emits the command word and the value as the width's operand, and no word for a value out of
range. -/
def Obligations.AssemblerEmitsTheValueOrNothing : Prop :=
  (∀ (w : Width) (v : Int), 0 ≤ v → v < 2 ^ w.bits →
    ∃ x : Operand, assemble (.encu w (.dec v)) = some (commandWord .encu w, x) ∧ (x.toNat : Int) = v) ∧
  (∀ (w : Width) (v : Int), (v < 0 ∨ 2 ^ w.bits ≤ v) → assemble (.encu w (.dec v)) = none) ∧
  (∀ (w : Width) (n : Nat), n < 2 ^ w.bits →
    ∃ x : Operand, assemble (.encu w (.hex n)) = some (commandWord .encu w, x) ∧ x.toNat = n) ∧
  (∀ (w : Width) (v : Int), -(2 ^ (w.bits - 1) : Int) ≤ v → v < 2 ^ (w.bits - 1) →
    ∃ x : Operand, assemble (.encs w (.dec v)) = some (commandWord .encs w, x) ∧ x.toInt = v) ∧
  (∀ (w : Width) (v : Int), (v < -(2 ^ (w.bits - 1) : Int) ∨ 2 ^ (w.bits - 1) ≤ v) →
    assemble (.encs w (.dec v)) = none) ∧
  (∀ (w : Width) (n : Nat), n < 2 ^ w.bits →
    ∃ x : Operand, assemble (.encs w (.hex n)) = some (commandWord .encs w, x) ∧
      x.toInt = (BitVec.ofNat w.bits n).toInt) ∧
  (∀ (w : Width) (n : Nat), 2 ^ w.bits ≤ n →
    assemble (.encu w (.hex n)) = none ∧ assemble (.encs w (.hex n)) = none) ∧
  ∀ w : Width, (∃ x, assemble (.decu w) = some (commandWord .decu w, x)) ∧
    ∃ x, assemble (.decs w) = some (commandWord .decs w, x)

/-! ### The step, the host, reset -/

/-- R30, R79: an `Issue` taken when no command runs is executed as the instruction its word decodes to, the host's
list past it. While a command runs, the core's own step, also under a held `Issue` (R234), executes that command: that
this is `exec` of the command OPR and WR name, with operand 0, is the model's reading of R14 (log 12, DEDUCED). The
host's action `letRun`, which lets the core take that step, is the model's own (log 4, DESIGN CHOICE). -/
def Obligations.StepRunsTheDecodedInstruction : Prop :=
  (∀ (s : State) (cmd : Command) (x : Operand) (more : List HostAction) (i : Instr),
    s.seq.busy = false → s.host = .issue cmd x :: more → decodeWord cmd x = .ok i →
    step s = exec i { s with host := more }) ∧
  (∀ s : State, s.seq.busy = true → (s.host = [] ∨ ∃ cmd x more, s.host = .issue cmd x :: more) →
    step s = exec (.of s.opr s.wr 0) s) ∧
  (∀ (s : State) (more : List HostAction), s.seq.busy = true → s.host = .letRun :: more →
    step s = exec (.of s.opr s.wr 0) { s with host := more })

/-- With no command running (IDLE, DONE or ERROR alike) and nothing from the host, a step answers the same state: the
model's form of a wait (log 14, DEDUCED). R231 says only that after reset the block waits in IDLE for an `Issue`. -/
def Obligations.WaitsWithoutACommand : Prop :=
  ∀ s : State, s.seq.busy = false → s.host = [] → step s = .next s

/-- R234: an `Issue` presented in ENCODING or READING is held until the running command ends: the step is the running
command's and the host's list keeps the `Issue`; with no command running it is accepted, as the instruction its word
decodes to. -/
def Obligations.IssueIsHeldWhileBusy : Prop :=
  ∀ (s : State) (cmd : Command) (x : Operand) (more : List HostAction), s.host = .issue cmd x :: more →
    (s.seq.busy = true → ∀ t, step s = .next t → t.host = s.host ∧ exec (.of s.opr s.wr 0) s = .next t) ∧
    (s.seq.busy = false → ∀ i, decodeWord cmd x = .ok i → step s = exec i { s with host := more })

/-- The model's reading of R234 (log 11): a command other than the running one, presented while that one runs, has no
effect at all. -/
def Obligations.HeldCommandHasNoEffect : Prop :=
  ∀ (s : State) (o : Op) (w : Width) (x : Operand),
    s.seq.busy = true → (o ≠ s.opr ∨ w ≠ s.wr) → exec (.of o w x) s = .next s

/-- R33: which result registers the host may read in which states, what a read returns, and that any other read is a
fault. A read changes nothing but what it returns. -/
def Obligations.ResultInterfaceReads : Prop :=
  ∀ (s : State) (r : ResultReg) (more : List HostAction), s.host = .read r :: more →
    (∀ v,
      ((r = .state ∧ v = .state s.seq.code) ∨
        (r = .status ∧ (s.seq = .done ∨ s.seq = .error) ∧ v = .status s.status.code) ∨
        (r = .count ∧ s.seq = .done ∧ v = .count s.count) ∨
        (r = .result ∧ s.seq = .done ∧ (s.opr = .decu ∨ s.opr = .decs) ∧ v = .result s.result) ∨
        (r = .errport ∧ s.seq = .error ∧ s.status = .ioFailure ∧ v = .errport s.errport.code) ∨
        (r = .errinfo ∧ s.seq = .error ∧ s.status = .ioFailure ∧ v = .errinfo s.errinfo)) →
      step s = .next { s with host := more, readout := some v }) ∧
    (((r = .status ∧ s.seq ≠ .done ∧ s.seq ≠ .error) ∨
        (r = .count ∧ s.seq ≠ .done) ∨
        (r = .result ∧ (s.seq ≠ .done ∨ s.opr = .encu ∨ s.opr = .encs)) ∨
        ((r = .errport ∨ r = .errinfo) ∧ (s.seq ≠ .error ∨ s.status ≠ .ioFailure))) →
      step s = .fault (.unreadable r))

/-- R21, R29: the codes of STATE, STATUS and ERRPORT. -/
def Obligations.RegisterCodes : Prop :=
  ([Seq.idle, .encoding, .reading, .done, .error].map fun q => q.code.toNat) = [0, 1, 2, 3, 4] ∧
  ([Status.ok, .overflow, .truncated, .ioFailure].map fun q => q.code.toNat) = [0, 1, 2, 3] ∧
  ([Port.src, .snk].map fun q => q.code.toNat) = [0, 1] ∧
  ([Op.encu, .encs, .decu, .decs].map fun q => q.code.toNat) = [0, 1, 2, 3]

/-- R230, R243: the reset state is IDLE, no result register but STATE can be read, nothing is in flight and the
streams are the instance's own. -/
def Obligations.ResetStateMeetsTheLaunchPremises : Prop :=
  State.reset.seq = .idle ∧ State.reset.afterReset = true ∧ State.reset.nothingInFlight = true ∧
    State.reset.ownsStreams = true

/-- R230 to R232: a reset, at any time, gives IDLE with no result register but STATE readable. With no command running
it touches neither stream. In a read, at most the source has moved: past its next answer, by at most one byte, and all
that was still to come is still to come. In an encode, at most the sink has taken the byte of the pending put, its next
answer used up and the others kept. Whether the transaction moved is a free value, and which answer it uses up is the
model's choice (log 7). -/
def Obligations.ResetAtAnyTime : Prop :=
  ∀ (s : State) (more : List HostAction), s.host = .reset :: more →
    ∃ t : State, step s = .next t ∧ t.afterReset = true ∧ t.host = more ∧ t.readout = s.readout ∧
      (s.seq.busy = false → t.src = s.src ∧ t.snk = s.snk) ∧
      (s.seq = .reading → t.snk = s.snk ∧ (t.src = s.src ∨
        (t.src = s.src.movedAtReset ∧ t.src.listed = s.src.listed.tail ∧ t.src.rest = s.src.rest ∧
          t.src.shared = s.src.shared ∧ (t.src.pos = s.src.pos + 1 ∨ t.src.pos = s.src.pos)))) ∧
      (s.seq = .encoding → t.src = s.src ∧ (t.snk = s.snk ∨
        (t.snk = s.snk.movedAtReset (pendingByte s) ∧ t.snk.listed = s.snk.listed.tail ∧ t.snk.rest = s.snk.rest ∧
          t.snk.shared = s.snk.shared ∧
          (s.opr = .encu → t.snk.bytes = s.snk.bytes ++ [encuByte s.rem]) ∧
          (s.opr = .encs → t.snk.bytes = s.snk.bytes ++ [encsByte s.rem]))))

/-- R236, R242, R65: the host changes a stream (it connects a source or a sink, or routes the sink's bytes to the
source) only while no command runs. While one runs the change is refused: the model's reading (log 15, DEDUCED). -/
def Obligations.StreamChangesOnlyBetweenCommands : Prop :=
  ∀ (s : State) (x : Source) (y : Sink) (more : List HostAction),
    (s.seq.busy = false →
      (s.host = .connectSource x :: more → step s = .next { s with host := more, src := x }) ∧
      (s.host = .connectSink y :: more → step s = .next { s with host := more, snk := y }) ∧
      (s.host = .routeSinkToSource :: more → step s = .next { s with host := more, src := s.snk.asSource })) ∧
    (s.seq.busy = true →
      s.host = .connectSource x :: more ∨ s.host = .connectSink y :: more ∨ s.host = .routeSinkToSource :: more →
      step s = .refused .streamChangedWhileRunning)

/-- R65: a source routed from the sink delivers the sink's bytes in their order; that End follows, and the position 0,
are the model's choice (log 17). -/
def Obligations.RoutedSinkIsReadBack : Prop :=
  ∀ (s : State) (more : List HostAction), s.seq.busy = false → s.host = .routeSinkToSource :: more →
    ∃ t, step s = .next t ∧ t.src.listed = s.snk.bytes.map .byte ∧ t.src.rest = .always .endOfInput ∧
      t.src.pos = 0 ∧ t.snk = s.snk ∧ t.host = more

/-! ### Acceptance -/

/-- R100, R31, R76: the acceptance of ENCU.W8, ENCU.W16, ENCU.W32, ENCU.W64 and ENCU.W128. -/
def Obligations.EncuAcceptance : Prop :=
  ∀ (w : Width) (x : Operand) (s : State), s.seq.busy = false → s.ownsStreams = true →
    exec (.of .encu w x) s = .next { s with
      opr := .encu, wr := w, gidx := 0, rem := BitVec.ofNat 128 (x.toNat % 2 ^ w.bits), seq := .encoding }

/-- R160, R31, R76: the acceptance of ENCS.W8, ENCS.W16, ENCS.W32, ENCS.W64 and ENCS.W128. -/
def Obligations.EncsAcceptance : Prop :=
  ∀ (w : Width) (x : Operand) (s : State), s.seq.busy = false → s.ownsStreams = true →
    exec (.of .encs w x) s = .next { s with
      opr := .encs, wr := w, gidx := 0, seq := .encoding
      rem := BitVec.ofInt 128 (Int.bmod (x.toNat : Int) (2 ^ w.bits)) }

/-- R130, R31: the acceptance of DECU.W8, DECU.W16, DECU.W32, DECU.W64 and DECU.W128. -/
def Obligations.DecuAcceptance : Prop :=
  ∀ (w : Width) (x : Operand) (s : State), s.seq.busy = false → s.ownsStreams = true →
    exec (.of .decu w x) s = .next { s with opr := .decu, wr := w, gidx := 0, acc := 0, seq := .reading }

/-- R170, R31: the acceptance of DECS.W8, DECS.W16, DECS.W32, DECS.W64 and DECS.W128. -/
def Obligations.DecsAcceptance : Prop :=
  ∀ (w : Width) (x : Operand) (s : State), s.seq.busy = false → s.ownsStreams = true →
    exec (.of .decs w x) s = .next { s with opr := .decs, wr := w, gidx := 0, acc := 0, seq := .reading }

/-- R64, R236: no command is accepted while another running instance shares a stream. -/
def Obligations.SharedStreamsAreRefused : Prop :=
  ∀ (i : Instr) (s : State), s.seq.busy = false → (s.src.shared = true ∨ s.snk.shared = true) →
    exec i s = .refused .sharedStream

/-- R76: an encoder does not see the operand's bits at W and above, a decoder sees none of its operand. -/
def Obligations.OperandBitsAboveWidthAreIgnored : Prop :=
  ∀ (o : Op) (w : Width) (x y : Operand) (s : State),
    (o.isEncoder = true → ∀ i, i < w.bits → x.getLsbD i = y.getLsbD i) →
    exec (.of o w x) s = exec (.of o w y) s

/-! ### The ports -/

/-- R51, R56: one `SrcNext` uses up one answer; a byte moves the position by one, End and Fail move nothing; nothing
else of the machine changes. -/
def Obligations.SourceTransaction : Prop :=
  ∀ (s t : State) (a : SrcAnswer), srcNext s = some (a, t) →
    t.src.listed = s.src.listed.tail ∧ t.src.rest = s.src.rest ∧ t.src.shared = s.src.shared ∧
      (∀ b, a = .byte b → t.src.pos = s.src.pos + 1) ∧
      ((a = .endOfInput ∨ ∃ info, a = .fail info) → t.src.pos = s.src.pos) ∧
      (∀ c more, s.src.listed = c :: more → a = c) ∧
      (s.src.listed = [] → ∀ c, s.src.rest = .always c → a = c) ∧
      t = { s with src := t.src, draws := t.draws }

/-- R52, R56: one `SnkPut(b)` uses up one answer; Ok appends b; of a failed put the sink keeps nothing or one byte, a
free value (log 6); nothing else of the machine changes. -/
def Obligations.SinkTransaction : Prop :=
  ∀ (s t : State) (a : SnkAnswer) (b : Byte), snkPut b s = some (a, t) →
    t.snk.listed = s.snk.listed.tail ∧ t.snk.rest = s.snk.rest ∧ t.snk.shared = s.snk.shared ∧
      (a = .ok → t.snk.bytes = s.snk.bytes ++ [b]) ∧
      (∀ info, a = .fail info → ∃ kept : List Byte, kept.length ≤ 1 ∧ t.snk.bytes = s.snk.bytes ++ kept) ∧
      (∀ c more, s.snk.listed = c :: more → a = c) ∧
      (s.snk.listed = [] → ∀ c, s.snk.rest = .always c → a = c) ∧
      t = { s with snk := t.snk, draws := t.draws }

/-- R53: a running command whose port never answers has no step: the fault names the port. -/
def Obligations.SilentPortsStopTheCore : Prop :=
  ∀ (o : Op) (w : Width) (x : Operand) (s : State), s.isRunning o w = true →
    (o.isEncoder = true → s.snk.listed = [] → s.snk.rest = .silent → exec (.of o w x) s = .fault .sinkSilent) ∧
    (o.isEncoder = false → s.src.listed = [] → s.src.rest = .silent → exec (.of o w x) s = .fault .sourceSilent)

/-! ### The encoders' group steps -/

/-- R101, R102: the group step of ENCU.W8, ENCU.W16, ENCU.W32, ENCU.W64 and ENCU.W128: the low 7 bits are put, with the
continuation bit set if anything is left after the shift; accepted, GIDX advances and the command ends with the last
byte, COUNT the number of bytes; failed, it ends with IOFailure of the sink. The put changes nothing but
the sink and the count of free values, so RESULT is not written. -/
def Obligations.EncuGroupStep : Prop :=
  ∀ (w : Width) (x : Operand) (s : State), s.seq = .encoding → s.opr = .encu → s.wr = w →
    ∀ (b : Byte) (shifted : State), b = BitVec.ofNat 8 (s.rem.toNat % 128 + if s.rem.toNat < 128 then 0 else 128) →
      shifted = { s with rem := BitVec.ofNat 128 (s.rem.toNat / 128) } →
      (∀ t, snkPut b shifted = some (.ok, t) →
        exec (.of .encu w x) s = .next
          (if s.rem.toNat < 128 then
            { t with gidx := s.gidx + 1, count := s.gidx + 1, status := .ok, seq := .done }
          else { t with gidx := s.gidx + 1 })) ∧
      (∀ info t, snkPut b shifted = some (.fail info, t) →
        exec (.of .encu w x) s = .next
          { t with status := .ioFailure, errport := .snk, errinfo := info, seq := .error }) ∧
      (∀ a t, snkPut b shifted = some (a, t) → t = { shifted with snk := t.snk, draws := t.draws })

/-- R161, R162: the group step of ENCS.W8, ENCS.W16, ENCS.W32, ENCS.W64 and ENCS.W128: the low 7 bits are put; the group
is the last when its bit 6 already gives every higher bit, that is, when what REM held lies in -64 to 63; accepted, GIDX
advances and the command ends with the last byte, COUNT the number of bytes; failed, it ends with IOFailure of the
sink. The put changes nothing but the sink and the count of free values, so RESULT is not written. -/
def Obligations.EncsGroupStep : Prop :=
  ∀ (w : Width) (x : Operand) (s : State), s.seq = .encoding → s.opr = .encs → s.wr = w →
    ∀ (b : Byte) (shifted : State),
      b = BitVec.ofNat 8 (s.rem.toNat % 128 + if -64 ≤ s.rem.toInt ∧ s.rem.toInt < 64 then 0 else 128) →
      shifted = { s with rem := BitVec.ofInt 128 (s.rem.toInt / 128) } →
      (∀ t, snkPut b shifted = some (.ok, t) →
        exec (.of .encs w x) s = .next
          (if -64 ≤ s.rem.toInt ∧ s.rem.toInt < 64 then
            { t with gidx := s.gidx + 1, count := s.gidx + 1, status := .ok, seq := .done }
          else { t with gidx := s.gidx + 1 })) ∧
      (∀ info t, snkPut b shifted = some (.fail info, t) →
        exec (.of .encs w x) s = .next
          { t with status := .ioFailure, errport := .snk, errinfo := info, seq := .error }) ∧
      (∀ a t, snkPut b shifted = some (a, t) → t = { shifted with snk := t.snk, draws := t.draws })

/-- R106: a failed put ends ENCU and ENCS in ERROR with IOFAILURE, the port and its report recorded, COUNT and RESULT
not written, and the bytes of the groups before it still in the sink; the core then takes no step of its own, so the
put is not retried and no other is made. -/
def Obligations.SinkFailureEndsTheEncode : Prop :=
  ∀ (w : Width) (x : Operand) (s u : State) (info : IoInfo), s.seq = .encoding → s.wr = w →
    ((s.opr = .encu ∧ snkPut (encuByte s.rem) { s with rem := shiftUnsigned s.rem } = some (.fail info, u)) ∨
      (s.opr = .encs ∧ snkPut (encsByte s.rem) { s with rem := shiftSigned s.rem } = some (.fail info, u))) →
    ∃ t : State, exec (.of s.opr w x) s = .next t ∧
      t = { u with status := .ioFailure, errport := .snk, errinfo := info, seq := .error } ∧
      t.count = s.count ∧ t.result = s.result ∧
      (∃ kept : List Byte, kept.length ≤ 1 ∧ t.snk.bytes = s.snk.bytes ++ kept) ∧
      coreStep t = .next t

/-! ### The decoders' read steps -/

/-- R26, R131: `ACC[7k+6:7k] <- p` replaces those seven bits and no others; where they and all above were zero it adds
p at bit offset 7k. -/
def Obligations.AccumulatorPlacesThePayload : Prop :=
  ∀ (acc : Acc) (k : Nat) (p : Payload), k < 20 →
    (∀ i, i < 140 → (accWrite acc k p).getLsbD i =
      if 7 * k ≤ i ∧ i < 7 * k + 7 then p.getLsbD (i - 7 * k) else acc.getLsbD i) ∧
    (acc.toNat < 2 ^ (7 * k) → (accWrite acc k p).toNat = acc.toNat + p.toNat * 2 ^ (7 * k))

/-- R131 to R134: the read step of DECU.W8, DECU.W16, DECU.W32, DECU.W64 and DECU.W128. On a byte: Overflow if a payload
bit lands at W or above or the continuation bit is set on group N(W)-1; else, with the continuation bit set, the next
group; else the end, with RESULT the value and COUNT the bytes read. On End, Truncated; on Fail, IOFailure of the
source. The read changes nothing but the source and the count of free values. -/
def Obligations.DecuReadStep : Prop :=
  ∀ (w : Width) (x : Operand) (s : State), s.seq = .reading → s.opr = .decu → s.wr = w →
    (∀ (t : State) (b : Byte) (acc : Acc), srcNext s = some (.byte b, t) →
      acc = accWrite s.acc s.gidx.toNat (payload b) →
      exec (.of .decu w x) s = .next
        (if 2 ^ w.bits ≤ acc.toNat ∨ (128 ≤ b.toNat ∧ s.gidx.toNat + 1 = w.groups) then
          { t with acc := acc, status := .overflow, seq := .error }
        else if 128 ≤ b.toNat then { t with acc := acc, gidx := s.gidx + 1 }
        else
          { t with
            acc := acc, result := BitVec.ofNat 128 acc.toNat, count := s.gidx + 1, status := .ok, seq := .done })) ∧
    (∀ t, srcNext s = some (.endOfInput, t) →
      exec (.of .decu w x) s = .next { t with status := .truncated, seq := .error }) ∧
    (∀ info t, srcNext s = some (.fail info, t) →
      exec (.of .decu w x) s = .next
        { t with status := .ioFailure, errport := .src, errinfo := info, seq := .error }) ∧
    (∀ a t, srcNext s = some (a, t) → t = { s with src := t.src, draws := t.draws })

/-- R171 to R174: the read step of DECS.W8, DECS.W16, DECS.W32, DECS.W64 and DECS.W128. On a byte with the continuation
bit set, Overflow at group NS(W)-1 and else the next group; on one with it clear, the value read as two's complement of
7·(k+1) bits ends the command if it lies in the range of W bits, and is Overflow if it does not. On End, Truncated; on
Fail, IOFailure of the source. GIDX below 20 is part of the invariant (R25); ACC holds no more groups. The
read changes nothing but the source and the count of free values. -/
def Obligations.DecsReadStep : Prop :=
  ∀ (w : Width) (x : Operand) (s : State), s.seq = .reading → s.opr = .decs → s.wr = w → s.gidx.toNat < 20 →
    (∀ (t : State) (b : Byte) (acc : Acc) (v : Int), srcNext s = some (.byte b, t) →
      acc = accWrite s.acc s.gidx.toNat (payload b) → v = (acc.setWidth (7 * (s.gidx.toNat + 1))).toInt →
      exec (.of .decs w x) s = .next
        (if 128 ≤ b.toNat then
          if s.gidx.toNat + 1 = w.signedGroups Config.params then
            { t with acc := acc, status := .overflow, seq := .error }
          else { t with acc := acc, gidx := s.gidx + 1 }
        else if -(2 ^ (w.bits - 1) : Int) ≤ v ∧ v < 2 ^ (w.bits - 1) then
          { t with acc := acc, result := BitVec.ofInt 128 v, count := s.gidx + 1, status := .ok, seq := .done }
        else { t with acc := acc, status := .overflow, seq := .error })) ∧
    (∀ t, srcNext s = some (.endOfInput, t) →
      exec (.of .decs w x) s = .next { t with status := .truncated, seq := .error }) ∧
    (∀ info t, srcNext s = some (.fail info, t) →
      exec (.of .decs w x) s = .next
        { t with status := .ioFailure, errport := .src, errinfo := info, seq := .error }) ∧
    (∀ a t, srcNext s = some (a, t) → t = { s with src := t.src, draws := t.draws })

/-- R135: End in READING ends DECU and DECS with Truncated, at any group index; nothing is consumed by it, and the core then
takes no step of its own, so it asks the source no more. -/
def Obligations.EndOfInputIsTruncated : Prop :=
  ∀ (o : Op) (w : Width) (x : Operand) (s t : State), o.isEncoder = false → s.isRunning o w = true →
    srcNext s = some (.endOfInput, t) →
    ∃ d : State, exec (.of o w x) s = .next d ∧ d = { t with status := .truncated, seq := .error } ∧
      d.src.pos = s.src.pos ∧ d.acc = s.acc ∧ d.result = s.result ∧ d.count = s.count ∧
      coreStep d = .next d

/-- R136: Fail in READING ends DECU and DECS with IOFAILURE, the source and its report recorded; the bytes read before
it stay consumed and it consumes none, and the core then takes no step of its own, so it is not retried. -/
def Obligations.SourceFailureEndsTheDecode : Prop :=
  ∀ (o : Op) (w : Width) (x : Operand) (s t : State) (info : IoInfo), o.isEncoder = false → s.isRunning o w = true →
    srcNext s = some (.fail info, t) →
    ∃ d : State, exec (.of o w x) s = .next d ∧
      d = { t with status := .ioFailure, errport := .src, errinfo := info, seq := .error } ∧
      d.src.pos = s.src.pos ∧ d.result = s.result ∧ d.count = s.count ∧ coreStep d = .next d

/-- R8, R172: the signed group bound is N(W) plus SLEB_EXTRA_GROUP, which this spec takes as 0, and no supported
width needs the extra group, since 7·N(W) > W. Under either value of the parameter a set continuation bit is Overflow
exactly at the bound. -/
def Obligations.SignedGroupBound : Prop :=
  (∀ w : Width, w.signedGroups Config.params = w.groups ∧ w.bits < 7 * w.groups) ∧
  ∀ (p : Params) (w : Width) (b : Byte) (s : State), 128 ≤ b.toNat →
    decsByte p w b s = .next
      (if s.gidx.toNat + 1 = w.groups + p.slebExtraGroup.val then { s with status := .overflow, seq := .error }
      else { s with gidx := s.gidx + 1 })

/-! ### The overflow tests -/

/-- R139: over an accumulator still zero at group k and above, DECU's payload test fires at no group before N(W)-1, and
at group N(W)-1 it and the group bound together fire exactly on the bytes with bit 7 set or a payload above
LASTMAX_U(W) = 2^(W - 7(N(W)-1)) - 1. -/
def Obligations.UnsignedLastGroupTable : Prop :=
  ∀ (w : Width) (acc : Acc) (k : Nat) (b : Byte), acc.toNat < 2 ^ (7 * k) →
    (k + 1 < w.groups → payloadOverflow w (accWrite acc k (payload b)) = false) ∧
    (k + 1 = w.groups →
      ((payloadOverflow w (accWrite acc k (payload b)) = true ∨ contBit b = true) ↔
        (128 ≤ b.toNat ∨ 2 ^ (w.bits - 7 * (w.groups - 1)) - 1 < b.toNat % 128)))

/-- R174: the three forms of the signed overflow detector are equal: the range of W bits, the bits of x from W-1 up all
alike, and, for the sign extension of n groups, top below W-1 or ACC[top:W-1] all alike. -/
def Obligations.SignedDetectorForms : Prop :=
  (∀ (w : Width) (x : Acc), fitsS w x = true ↔
    (-(2 ^ (w.bits - 1) : Int) ≤ x.toInt ∧ x.toInt ≤ (2 ^ (w.bits - 1) : Int) - 1)) ∧
  (∀ (w : Width) (x : Acc), fitsS w x = true ↔
    ((∀ i, w.bits - 1 ≤ i → i < 140 → x.getLsbD i = false) ∨
      (∀ i, w.bits - 1 ≤ i → i < 140 → x.getLsbD i = true))) ∧
  (∀ (w : Width) (acc : Acc) (n : Nat), 1 ≤ n → n ≤ 20 →
    (fitsS w (sextAcc acc n) = true ↔
      (7 * n - 1 < w.bits - 1 ∨
        (∀ i, w.bits - 1 ≤ i → i ≤ 7 * n - 1 → acc.getLsbD i = false) ∨
        (∀ i, w.bits - 1 ≤ i → i ≤ 7 * n - 1 → acc.getLsbD i = true))))

/-- R176: over an accumulator still zero at group k and above, a terminating byte before group N(W)-1 always fits; at
group N(W)-1 exactly those fit whose payload bits 6 to m-1 are all equal, m = W - 7(N(W)-1), and a byte with its
continuation bit set is Overflow there. -/
def Obligations.SignedLastGroupTable : Prop :=
  (∀ (w : Width) (acc : Acc) (k : Nat) (b : Byte), acc.toNat < 2 ^ (7 * k) → b.toNat < 128 →
    (k + 1 < w.groups → fitsS w (sextAcc (accWrite acc k (payload b)) (k + 1)) = true) ∧
    (k + 1 = w.groups →
      (fitsS w (sextAcc (accWrite acc k (payload b)) (k + 1)) = true ↔
        (b.toNat < 2 ^ (w.bits - 7 * (w.groups - 1) - 1) ∨
          128 - 2 ^ (w.bits - 7 * (w.groups - 1) - 1) ≤ b.toNat)))) ∧
  ∀ (w : Width) (b : Byte) (s : State), 128 ≤ b.toNat → s.gidx.toNat + 1 = w.groups →
    decsByte Config.params w b s = .next { s with status := .overflow, seq := .error }

/-! ### What changes, and what does not -/

/-- R21: the changes of STATE by a command's step are those of the table, and only those: an acceptance, and, of the
running command alone, a group step that stays, an end in DONE or in ERROR. A command presented while another runs
changes nothing (the model's reading of R234, log 11). -/
def Obligations.StateTransitionTable : Prop :=
  ∀ (i : Instr) (s t : State), exec i s = .next t →
    (s.seq.busy = false ∧ i.op.isEncoder = true ∧ t.seq = .encoding) ∨
    (s.seq.busy = false ∧ i.op.isEncoder = false ∧ t.seq = .reading) ∨
    (s.seq = .encoding ∧ s.isRunning i.op i.width = true ∧
      (t.seq = .encoding ∨ t.seq = .done ∨ (t.seq = .error ∧ t.status = .ioFailure))) ∨
    (s.seq = .reading ∧ s.isRunning i.op i.width = true ∧
      (t.seq = .reading ∨ t.seq = .done ∨ (t.seq = .error ∧ t.status ≠ .ok))) ∨
    (s.seq.busy = true ∧ s.isRunning i.op i.width = false ∧ t = s)

/-- The frame of the ten encoders ENCU.W* and ENCS.W*: RESULT, ACC, the source and the host's side never change; OPR and
WR change only at acceptance; COUNT, STATUS, ERRPORT and ERRINFO only at the end (R23, R27 to R29, R50). The sink
changes only by a group step, which leaves every byte in it and adds the group's byte when accepted, and at most one
byte when the put failed (R56). -/
def Obligations.EncoderFrame : Prop :=
  ∀ (o : Op) (w : Width) (x : Operand) (s t : State), o.isEncoder = true → exec (.of o w x) s = .next t →
    (t.result = s.result ∧ t.acc = s.acc ∧ t.src = s.src ∧ t.host = s.host ∧ t.readout = s.readout) ∧
    (s.seq.busy = true → t.opr = s.opr ∧ t.wr = s.wr) ∧
    (t.seq.busy = true →
      t.count = s.count ∧ t.status = s.status ∧ t.errport = s.errport ∧ t.errinfo = s.errinfo) ∧
    (t.seq = .done → t.errport = s.errport ∧ t.errinfo = s.errinfo) ∧
    (t.seq = .error → t.count = s.count) ∧
    (s.isRunning o w = false → t.snk = s.snk) ∧
    (s.isRunning o w = true → t.seq ≠ .error →
      t.snk.bytes = s.snk.bytes ++ [if o = .encu then encuByte s.rem else encsByte s.rem]) ∧
    (t.seq = .error → ∃ kept : List Byte, kept.length ≤ 1 ∧ t.snk.bytes = s.snk.bytes ++ kept)

/-- The frame of the ten decoders DECU.W* and DECS.W*: REM, the sink and the host's side never change; OPR and WR
change only at acceptance; RESULT, COUNT, STATUS, ERRPORT and ERRINFO only at the end (R23, R27 to R29, R50). The source
changes only by a read step, by one answer and at most one byte (R56, R57). -/
def Obligations.DecoderFrame : Prop :=
  ∀ (o : Op) (w : Width) (x : Operand) (s t : State), o.isEncoder = false → exec (.of o w x) s = .next t →
    (t.rem = s.rem ∧ t.snk = s.snk ∧ t.host = s.host ∧ t.readout = s.readout) ∧
    (s.seq.busy = true → t.opr = s.opr ∧ t.wr = s.wr) ∧
    (t.seq.busy = true →
      t.result = s.result ∧ t.count = s.count ∧ t.status = s.status ∧ t.errport = s.errport ∧
        t.errinfo = s.errinfo) ∧
    (t.seq = .done → t.errport = s.errport ∧ t.errinfo = s.errinfo) ∧
    (t.seq = .error → t.result = s.result ∧ t.count = s.count) ∧
    (s.isRunning o w = false → t.src = s.src) ∧
    (s.isRunning o w = true → t.src.listed = s.src.listed.tail ∧
      (t.src.pos = s.src.pos ∨ t.src.pos = s.src.pos + 1) ∧ (t.seq ≠ .error → t.src.pos = s.src.pos + 1))

/-- R204, R207: a command's step that enters ERROR writes neither RESULT nor COUNT, and ERRPORT and ERRINFO only for
IOFailure; the new STATUS is one error. -/
def Obligations.ErrorEntryWritesOnlyTheError : Prop :=
  ∀ (i : Instr) (s t : State), exec i s = .next t → t.seq = .error →
    t.result = s.result ∧ t.count = s.count ∧ t.status ≠ .ok ∧
      (t.status ≠ .ioFailure → t.errport = s.errport ∧ t.errinfo = s.errinfo)

/-- R104, R201 to R203: an encoder's only error is IOFailure of the sink; a decoder's IOFailure is of the source. -/
def Obligations.ErrorsByCommand : Prop :=
  ∀ (i : Instr) (s t : State), exec i s = .next t → t.seq = .error →
    (i.op.isEncoder = true → t.status = .ioFailure ∧ t.errport = .snk) ∧
    (i.op.isEncoder = false → t.status = .ioFailure → t.errport = .src)

/-- R27, R28, R29: over any step but a reset, COUNT and RESULT are written only when a command ends in DONE, RESULT only
by a decoder, STATUS only when a command ends, and ERRPORT and ERRINFO only when it ends with IOFAILURE. -/
def Obligations.ResultRegistersAreWrittenAtTheEnd : Prop :=
  ∀ s t : State, step s = .next t → (∀ more, s.host ≠ .reset :: more) →
    (t.count ≠ s.count → s.seq.busy = true ∧ t.seq = .done) ∧
    (t.result ≠ s.result → s.seq = .reading ∧ t.seq = .done ∧ t.opr.isEncoder = false) ∧
    (t.status ≠ s.status → s.seq.busy = true ∧ (t.seq = .done ∨ t.seq = .error)) ∧
    ((t.errport ≠ s.errport ∨ t.errinfo ≠ s.errinfo) →
      s.seq.busy = true ∧ t.seq = .error ∧ t.status = .ioFailure)

/-- R106, R206: no step but the host's connecting another sink takes a byte back from the sink. -/
def Obligations.SinkKeepsItsBytes : Prop :=
  ∀ s t : State, step s = .next t → (∀ y more, s.host ≠ .connectSink y :: more) → s.snk.bytes <+: t.snk.bytes

/-! ### The invariant -/

/-- The invariant of the registers holds at reset. -/
def Obligations.InvariantHoldsAtReset : Prop := State.reset.Inv

/-- R24 to R29, R200 to R205: every step of the machine keeps the invariant of the registers: GIDX below its bound, but
after an encode, where it is COUNT (log 19), REM what is left of a W-bit value, ACC zero above the groups read, COUNT and RESULT of a success
those its width admits, the one error of a failure one its command can raise. -/
def Obligations.EveryStepKeepsTheInvariant : Prop :=
  ∀ s t : State, s.Inv → step s = .next t → t.Inv

/-- R25: GIDX never exceeds 18 in the states a command puts the machine in: while it runs, where GIDX is the index of
the group the next step emits or reads, after a decode, and after an error. The one state past the bound is that after
an encode of 19 groups, with W = 128: no step emits a next group there, and GIDX is COUNT, as R101 and R162 leave it
(the model's reading of R25, log 19). -/
def Obligations.GroupIndexStaysInItsBound : Prop :=
  ∀ s t : State, s.Inv → step s = .next t → t.seq ≠ .idle →
    (t.seq ≠ .done ∨ t.opr.isEncoder = false → t.gidx.toNat ≤ 18) ∧
    (t.seq = .done → t.opr.isEncoder = true → t.gidx = t.count ∧ (18 < t.gidx.toNat → t.gidx.toNat = 19 ∧ t.wr = .w128))

/-- R31, R36, R241: between commands GIDX is seen by nothing. With no command running, whatever value GIDX held instead
(log 19: 18 or 19 after an encode of 19 groups), the host's view is the same, the next step ends the same way, and the
state after it is the same, but for GIDX itself where no command was accepted and no reset came. -/
def Obligations.GroupIndexBetweenCommandsIsNotObservable : Prop :=
  ∀ (s u : State) (g : BitVec 5), s.seq.busy = false → u = { s with gidx := g } →
    u.finalView = s.finalView ∧
    (∀ t, step s = .next t → step u = .next t ∨ (t.seq.busy = false ∧ step u = .next { t with gidx := g })) ∧
    (∀ f, step s = .fault f → step u = .fault f) ∧
    (∀ r, step s = .refused r → step u = .refused r)

/-! ### Whole commands -/

/-- R101 to R105, R163's counterpart for ENCU: issued when no command runs, with a sink that accepts, ENCU.W emits one
well-formed group sequence that stands for the operand's low W bits, of the minimal length, at most N(W), its last byte
zero only for 0, and ends in DONE with COUNT its length; RESULT and the source are untouched. -/
def Obligations.EncuEmitsTheCanonicalSequence : Prop :=
  ∀ (w : Width) (x : Operand) (s : State), s.seq.busy = false → s.ownsStreams = true → s.sinkAccepts →
    ∃ (bytes : List Byte) (t : State),
      Sys2Proof.core.run (1 + bytes.length) { s with host := [.issue (commandWord .encu w) x] } = .next t ∧
      groupsWf bytes ∧ groupsValue bytes = x.toNat % 2 ^ w.bits ∧
      isUlebLength (x.toNat % 2 ^ w.bits) bytes.length ∧ bytes.length ≤ w.groups ∧
      (bytes.getLast? = some 0 → bytes = [0]) ∧
      t.seq = .done ∧ t.status = .ok ∧ t.count.toNat = bytes.length ∧
      t.snk.bytes = s.snk.bytes ++ bytes ∧ t.result = s.result ∧ t.src = s.src

/-- R161 to R164: issued when no command runs, with a sink that accepts, ENCS.W emits one well-formed group sequence
that stands for the operand's low W bits as two's complement, of the minimal length, at most N(W), and ends in DONE with
COUNT its length; RESULT and the source are untouched. -/
def Obligations.EncsEmitsTheCanonicalSequence : Prop :=
  ∀ (w : Width) (x : Operand) (s : State), s.seq.busy = false → s.ownsStreams = true → s.sinkAccepts →
    ∃ (bytes : List Byte) (t : State),
      Sys2Proof.core.run (1 + bytes.length) { s with host := [.issue (commandWord .encs w) x] } = .next t ∧
      groupsWf bytes ∧ groupsSigned bytes = Int.bmod (x.toNat : Int) (2 ^ w.bits) ∧
      isSlebLength (Int.bmod (x.toNat : Int) (2 ^ w.bits)) bytes.length ∧ bytes.length ≤ w.groups ∧
      t.seq = .done ∧ t.status = .ok ∧ t.count.toNat = bytes.length ∧
      t.snk.bytes = s.snk.bytes ++ bytes ∧ t.result = s.result ∧ t.src = s.src

/-- R131 to R138, R57: DECU.W accepts every well-formed group sequence of at most N(W) groups whose value fits W bits,
canonical or not, ends in DONE with RESULT the value and COUNT its length, and leaves the source right after it. -/
def Obligations.DecuDecodesWhatFits : Prop :=
  ∀ (w : Width) (x : Operand) (s : State) (bytes : List Byte) (more : List SrcAnswer),
    s.seq.busy = false → s.ownsStreams = true → s.src.listed = bytes.map .byte ++ more →
    groupsWf bytes → bytes.length ≤ w.groups → groupsValue bytes < 2 ^ w.bits →
    ∃ t : State,
      Sys2Proof.core.run (1 + bytes.length) { s with host := [.issue (commandWord .decu w) x] } = .next t ∧
      t.seq = .done ∧ t.status = .ok ∧ t.result.toNat = groupsValue bytes ∧ t.count.toNat = bytes.length ∧
      t.src.listed = more ∧ t.src.pos = s.src.pos + bytes.length ∧ t.snk = s.snk

/-- R171 to R175, R177, R179: the same for DECS.W, with the value and RESULT in two's complement, the range of W bits
and the bound NS(W). -/
def Obligations.DecsDecodesWhatFits : Prop :=
  ∀ (w : Width) (x : Operand) (s : State) (bytes : List Byte) (more : List SrcAnswer),
    s.seq.busy = false → s.ownsStreams = true → s.src.listed = bytes.map .byte ++ more →
    groupsWf bytes → bytes.length ≤ w.signedGroups Config.params →
    -(2 ^ (w.bits - 1) : Int) ≤ groupsSigned bytes → groupsSigned bytes < 2 ^ (w.bits - 1) →
    ∃ t : State,
      Sys2Proof.core.run (1 + bytes.length) { s with host := [.issue (commandWord .decs w) x] } = .next t ∧
      t.seq = .done ∧ t.status = .ok ∧ t.result.toInt = groupsSigned bytes ∧ t.count.toNat = bytes.length ∧
      (t.result.setWidth w.bits).toInt = groupsSigned bytes ∧
      t.src.listed = more ∧ t.src.pos = s.src.pos + bytes.length ∧ t.snk = s.snk

/-- R132, R133, R137, R58: DECU.W on N(W) bytes of which all but the last continue, and that either continue there too
or stand for a value of more than W bits, ends in ERROR with OVERFLOW after exactly N(W) reads; what follows stays in
the source, and RESULT and COUNT are not written. -/
def Obligations.DecuOverflowsAtTheBound : Prop :=
  ∀ (w : Width) (x : Operand) (s : State) (bytes : List Byte) (more : List SrcAnswer),
    s.seq.busy = false → s.ownsStreams = true → s.src.listed = bytes.map .byte ++ more →
    bytes.length = w.groups → allContinue bytes.dropLast →
    (allContinue bytes ∨ 2 ^ w.bits ≤ groupsValue bytes) →
    ∃ t : State,
      Sys2Proof.core.run (1 + w.groups) { s with host := [.issue (commandWord .decu w) x] } = .next t ∧
      t.seq = .error ∧ t.status = .overflow ∧ t.result = s.result ∧ t.count = s.count ∧
      t.src.listed = more ∧ t.src.pos = s.src.pos + w.groups

/-- R172, R174, R177, R58: DECS.W on NS(W) bytes of which all but the last continue, and that either continue there too
or stand for a value outside the range of W bits, ends in ERROR with OVERFLOW after exactly NS(W) reads; what follows
stays in the source, and RESULT and COUNT are not written. -/
def Obligations.DecsOverflowsAtTheBound : Prop :=
  ∀ (w : Width) (x : Operand) (s : State) (bytes : List Byte) (more : List SrcAnswer),
    s.seq.busy = false → s.ownsStreams = true → s.src.listed = bytes.map .byte ++ more →
    bytes.length = w.signedGroups Config.params → allContinue bytes.dropLast →
    (allContinue bytes ∨ groupsSigned bytes < -(2 ^ (w.bits - 1) : Int) ∨
      (2 ^ (w.bits - 1) : Int) ≤ groupsSigned bytes) →
    ∃ t : State,
      Sys2Proof.core.run (1 + w.signedGroups Config.params) { s with host := [.issue (commandWord .decs w) x] } =
        .next t ∧
      t.seq = .error ∧ t.status = .overflow ∧ t.result = s.result ∧ t.count = s.count ∧
      t.src.listed = more ∧ t.src.pos = s.src.pos + w.signedGroups Config.params

/-- R135, R202, R58: a decode whose source ends within the bound, before a terminating byte, ends in ERROR with
TRUNCATED; the bytes it read stay read. -/
def Obligations.DecodeOfACutSequenceIsTruncated : Prop :=
  ∀ (o : Op) (w : Width) (x : Operand) (s : State) (bytes : List Byte) (more : List SrcAnswer),
    o.isEncoder = false → s.seq.busy = false → s.ownsStreams = true →
    s.src.listed = bytes.map .byte ++ .endOfInput :: more → bytes.length < w.groups → allContinue bytes →
    ∃ t : State,
      Sys2Proof.core.run (2 + bytes.length) { s with host := [.issue (commandWord o w) x] } = .next t ∧
      t.seq = .error ∧ t.status = .truncated ∧ t.result = s.result ∧ t.count = s.count ∧
      t.src.listed = more ∧ t.src.pos = s.src.pos + bytes.length

/-- R141: for every v < 2^W, DECU.W on a source holding the bytes ENCU.W emits for v, whether or not End follows them,
ends in DONE with RESULT = v and COUNT = n(v), the number of bytes emitted. -/
def Obligations.UnsignedRoundTrip : Prop :=
  ∀ (w : Width) (x y : Operand) (s : State), s.seq.busy = false → s.ownsStreams = true → s.sinkAccepts →
    s.snk.bytes = [] → x.toNat < 2 ^ w.bits →
    ∃ (n : Nat) (t : State),
      Sys2Proof.core.run (1 + n) { s with host := [.issue (commandWord .encu w) x] } = .next t ∧ t.seq = .done ∧
      t.count.toNat = n ∧ t.snk.bytes.length = n ∧ isUlebLength x.toNat n ∧
      ∀ u : State, u.seq.busy = false → u.ownsStreams = true → u.srcContents t.snk.bytes →
        ∃ d : State, Sys2Proof.core.run (1 + n) { u with host := [.issue (commandWord .decu w) y] } = .next d ∧
          d.seq = .done ∧ d.result = x ∧ d.count.toNat = n

/-- R178: for every -2^(W-1) ≤ v < 2^(W-1), DECS.W on a source holding the bytes ENCS.W emits for v, whether or not End
follows them, ends in DONE with sval(RESULT[W-1:0]) = v and COUNT = n_s(v), the number of bytes emitted. -/
def Obligations.SignedRoundTrip : Prop :=
  ∀ (w : Width) (x y : Operand) (s : State), s.seq.busy = false → s.ownsStreams = true → s.sinkAccepts →
    s.snk.bytes = [] → -(2 ^ (w.bits - 1) : Int) ≤ x.toInt → x.toInt < 2 ^ (w.bits - 1) →
    ∃ (n : Nat) (t : State),
      Sys2Proof.core.run (1 + n) { s with host := [.issue (commandWord .encs w) x] } = .next t ∧ t.seq = .done ∧
      t.count.toNat = n ∧ t.snk.bytes.length = n ∧ isSlebLength x.toInt n ∧
      ∀ u : State, u.seq.busy = false → u.ownsStreams = true → u.srcContents t.snk.bytes →
        ∃ d : State, Sys2Proof.core.run (1 + n) { u with host := [.issue (commandWord .decs w) y] } = .next d ∧
          d.seq = .done ∧ d.result = x ∧ (d.result.setWidth w.bits).toInt = x.toInt ∧ d.count.toNat = n

/-- R210, R238: if both ports always answer, every command ends in DONE or ERROR after at most N(W) transactions, NS(W)
for DECS, whatever the answers: from its acceptance, and from any group of it in a state that meets the invariant. -/
def Obligations.EveryCommandEnds : Prop :=
  (∀ (o : Op) (w : Width) (x : Operand) (s : State), s.seq.busy = false → s.ownsStreams = true → s.portsAnswer →
    ∃ (n : Nat) (t : State), 1 ≤ n ∧ n ≤ (if o = .decs then w.signedGroups Config.params else w.groups) ∧
      Sys2Proof.core.run (1 + n) { s with host := [.issue (commandWord o w) x] } = .next t ∧
      (t.seq = .done ∨ t.seq = .error)) ∧
  ∀ s : State, s.Inv → s.seq.busy = true → s.host = [] → s.portsAnswer →
    ∃ (n : Nat) (t : State), 1 ≤ n ∧
      n + s.gidx.toNat ≤ (if s.opr = .decs then s.wr.signedGroups Config.params else s.wr.groups) ∧
      Sys2Proof.core.run n s = .next t ∧ (t.seq = .done ∨ t.seq = .error)
end

