-- ==== Sys2Proof/Laws/Bits.lean ====
section
/-! SUPPORT. What the bit fields, the extensions and the tests are as numbers. -/

namespace Sys2Proof

/-! ### Widths -/

theorem Width.bits_cases (w : Width) : w.bits = 8 ∨ w.bits = 16 ∨ w.bits = 32 ∨ w.bits = 64 ∨ w.bits = 128 := by
  cases w <;> decide

theorem Width.bits_le (w : Width) : w.bits ≤ 128 := by cases w <;> decide

theorem Width.bits_pos (w : Width) : 1 ≤ w.bits := by cases w <;> decide

theorem Width.groups_le (w : Width) : w.groups ≤ 19 := by cases w <;> decide

/-- The last group N(W)-1 begins below bit W, and group N(W) would begin above it. -/
theorem Width.groups_spec (w : Width) : 7 * (w.groups - 1) < w.bits ∧ w.bits < 7 * w.groups ∧ 1 ≤ w.groups := by
  cases w <;> decide

/-! ### Groups -/

theorem payload_toNat (b : Byte) : (payload b).toNat = b.toNat % 128 := by
  simp [payload, BitVec.extractLsb'_toNat]

theorem lowGroup_toNat (r : Operand) : (lowGroup r).toNat = r.toNat % 128 := by
  simp [lowGroup, BitVec.extractLsb'_toNat]

theorem contBit_iff (b : Byte) : contBit b = true ↔ 128 ≤ b.toNat := by
  have hb := b.isLt
  rw [contBit, BitVec.getLsbD, Nat.testBit_eq_decide_div_mod_eq, decide_eq_true_iff]
  omega

theorem groupByte_toNat (last : Bool) (g : Payload) :
    (groupByte last g).toNat = g.toNat + if last then 0 else 128 := by
  have hg := g.isLt
  rw [groupByte, BitVec.toNat_append, ← Nat.shiftLeft_add_eq_or_of_lt hg]
  cases last <;> simp [Nat.shiftLeft_eq, Nat.add_comm]

theorem shiftUnsigned_toNat (r : Operand) : (shiftUnsigned r).toNat = r.toNat / 128 := by
  simp [shiftUnsigned, Nat.shiftRight_eq_div_pow]

theorem shiftSigned_toInt (r : Operand) : (shiftSigned r).toInt = r.toInt / 128 := by
  simp [shiftSigned, BitVec.toInt_sshiftRight, Int.shiftRight_eq_div_pow]

theorem encuLast_iff (r : Operand) : encuLast (shiftUnsigned r) = true ↔ r.toNat < 128 := by
  rw [encuLast, beq_iff_eq, ← BitVec.toNat_inj, shiftUnsigned_toNat, show (0 : Operand).toNat = 0 from rfl]
  omega

theorem groupSign_iff (g : Payload) : groupSign g = true ↔ 64 ≤ g.toNat := by
  have hg := g.isLt
  rw [groupSign, BitVec.getLsbD, Nat.testBit_eq_decide_div_mod_eq, decide_eq_true_iff]
  omega

/-- The low seven bits are those of the signed value too. -/
theorem toNat_mod_128_eq (r : Operand) : ((r.toNat % 128 : Nat) : Int) = r.toInt % 128 := by
  rw [BitVec.toInt_eq_toNat_cond]
  have := r.isLt
  split <;> omega

/-- The sign-determination test says that what is left is one signed group. -/
theorem encsLast_iff (r : Operand) :
    encsLast (shiftSigned r) (lowGroup r) = true ↔ -64 ≤ r.toInt ∧ r.toInt < 64 := by
  have h0 : shiftSigned r = 0 ↔ r.toInt / 128 = 0 := by
    rw [← BitVec.toInt_inj, shiftSigned_toInt]; simp
  have h1 : shiftSigned r = BitVec.allOnes 128 ↔ r.toInt / 128 = -1 := by
    rw [← BitVec.toInt_inj, shiftSigned_toInt, BitVec.toInt_allOnes]; simp
  have hm := toNat_mod_128_eq r
  have hs := groupSign_iff (lowGroup r)
  rw [lowGroup_toNat] at hs
  have hs' : groupSign (lowGroup r) = false ↔ r.toNat % 128 < 64 := by
    rw [← Bool.not_eq_true, hs]; omega
  simp only [encsLast, Bool.or_eq_true, Bool.and_eq_true, beq_iff_eq, Bool.not_eq_true', h0, h1, hs, hs']
  omega

/-- The byte ENCU emits, as a number. -/
theorem encuByte_toNat (r : Operand) :
    (encuByte r).toNat = r.toNat % 128 + if r.toNat < 128 then 0 else 128 := by
  rw [encuByte, groupByte_toNat, lowGroup_toNat]
  simp only [encuLast_iff]

/-- The byte ENCS emits, as a number. -/
theorem encsByte_toNat (r : Operand) :
    (encsByte r).toNat = r.toNat % 128 + if -64 ≤ r.toInt ∧ r.toInt < 64 then 0 else 128 := by
  rw [encsByte, groupByte_toNat, lowGroup_toNat]
  simp only [encsLast_iff]

/-! ### Operands and results -/

theorem zextOperand_toNat (w : Width) (x : Operand) : (zextOperand w x).toNat = x.toNat % 2 ^ w.bits := by
  have h : x.toNat % 2 ^ w.bits < 2 ^ 128 :=
    Nat.lt_of_lt_of_le (Nat.mod_lt _ (Nat.two_pow_pos _)) (Nat.pow_le_pow_right (by decide) w.bits_le)
  rw [zextOperand, BitVec.toNat_setWidth, BitVec.toNat_setWidth, Nat.mod_eq_of_lt h]

theorem sextOperand_toInt (w : Width) (x : Operand) :
    (sextOperand w x).toInt = Int.bmod (x.toNat : Int) (2 ^ w.bits) := by
  rw [sextOperand, BitVec.toInt_signExtend_of_le w.bits_le, BitVec.toInt_setWidth]

theorem payloadOverflow_iff (w : Width) (acc : Acc) : payloadOverflow w acc = true ↔ 2 ^ w.bits ≤ acc.toNat := by
  have hp := Nat.two_pow_pos w.bits
  rw [payloadOverflow, bne_iff_ne, ne_eq, ← BitVec.toNat_inj, BitVec.toNat_ushiftRight, Nat.shiftRight_eq_div_pow,
    show (0 : Acc).toNat = 0 from rfl, Nat.div_eq_zero_iff]
  omega

theorem unsignedResult_toNat (w : Width) (acc : Acc) : (unsignedResult w acc).toNat = acc.toNat % 2 ^ w.bits := by
  have h : acc.toNat % 2 ^ w.bits < 2 ^ 128 :=
    Nat.lt_of_lt_of_le (Nat.mod_lt _ (Nat.two_pow_pos _)) (Nat.pow_le_pow_right (by decide) w.bits_le)
  rw [unsignedResult, BitVec.toNat_setWidth, BitVec.toNat_setWidth, Nat.mod_eq_of_lt h]

/-- The sign extension of n groups is their value as two's complement of 7n bits. -/
theorem sextAcc_toInt (acc : Acc) (n : Nat) (h : n ≤ 20) : (sextAcc acc n).toInt = (acc.setWidth (7 * n)).toInt := by
  rw [sextAcc, BitVec.toInt_signExtend_of_le (by omega)]

theorem fitsS_iff (w : Width) (x : Acc) :
    fitsS w x = true ↔ -(2 ^ (w.bits - 1) : Int) ≤ x.toInt ∧ x.toInt < 2 ^ (w.bits - 1) := by
  rw [fitsS, Bool.and_eq_true, decide_eq_true_iff, decide_eq_true_iff]
  omega

/-- A value that fits is kept by the result (42_sleb128.md R175). -/
theorem signedResult_toInt (w : Width) (x : Acc) (h : fitsS w x = true) : (signedResult w x).toInt = x.toInt := by
  rw [fitsS_iff, BitVec.toInt_eq_toNat_cond] at h
  rw [signedResult, BitVec.toInt_signExtend_of_le w.bits_le, BitVec.toInt_setWidth, BitVec.toInt_eq_toNat_cond,
    Int.bmod_def]
  have hx := x.isLt
  rcases w.bits_cases with hw | hw | hw | hw | hw <;> simp only [hw] at h ⊢ <;> push_cast <;> split at h <;> omega

end Sys2Proof
end

