-- ==== Sys2Proof/Laws/State.lean ====
section
/-! SUPPORT. One lemma per field per update of the state, so that no later proof unfolds a record update. -/

namespace Sys2Proof.Machine

@[simp] theorem State.raiseOverflow_seq (s : State) : (s.raiseOverflow).seq = .error := rfl
@[simp] theorem State.raiseOverflow_opr (s : State) : (s.raiseOverflow).opr = s.opr := rfl
@[simp] theorem State.raiseOverflow_wr (s : State) : (s.raiseOverflow).wr = s.wr := rfl
@[simp] theorem State.raiseOverflow_rem (s : State) : (s.raiseOverflow).rem = s.rem := rfl
@[simp] theorem State.raiseOverflow_gidx (s : State) : (s.raiseOverflow).gidx = s.gidx := rfl
@[simp] theorem State.raiseOverflow_acc (s : State) : (s.raiseOverflow).acc = s.acc := rfl
@[simp] theorem State.raiseOverflow_count (s : State) : (s.raiseOverflow).count = s.count := rfl
@[simp] theorem State.raiseOverflow_result (s : State) : (s.raiseOverflow).result = s.result := rfl
@[simp] theorem State.raiseOverflow_status (s : State) : (s.raiseOverflow).status = .overflow := rfl
@[simp] theorem State.raiseOverflow_errport (s : State) : (s.raiseOverflow).errport = s.errport := rfl
@[simp] theorem State.raiseOverflow_errinfo (s : State) : (s.raiseOverflow).errinfo = s.errinfo := rfl
@[simp] theorem State.raiseOverflow_src (s : State) : (s.raiseOverflow).src = s.src := rfl
@[simp] theorem State.raiseOverflow_snk (s : State) : (s.raiseOverflow).snk = s.snk := rfl
@[simp] theorem State.raiseOverflow_host (s : State) : (s.raiseOverflow).host = s.host := rfl
@[simp] theorem State.raiseOverflow_readout (s : State) : (s.raiseOverflow).readout = s.readout := rfl
@[simp] theorem State.raiseOverflow_draws (s : State) : (s.raiseOverflow).draws = s.draws := rfl

@[simp] theorem State.raiseTruncated_seq (s : State) : (s.raiseTruncated).seq = .error := rfl
@[simp] theorem State.raiseTruncated_opr (s : State) : (s.raiseTruncated).opr = s.opr := rfl
@[simp] theorem State.raiseTruncated_wr (s : State) : (s.raiseTruncated).wr = s.wr := rfl
@[simp] theorem State.raiseTruncated_rem (s : State) : (s.raiseTruncated).rem = s.rem := rfl
@[simp] theorem State.raiseTruncated_gidx (s : State) : (s.raiseTruncated).gidx = s.gidx := rfl
@[simp] theorem State.raiseTruncated_acc (s : State) : (s.raiseTruncated).acc = s.acc := rfl
@[simp] theorem State.raiseTruncated_count (s : State) : (s.raiseTruncated).count = s.count := rfl
@[simp] theorem State.raiseTruncated_result (s : State) : (s.raiseTruncated).result = s.result := rfl
@[simp] theorem State.raiseTruncated_status (s : State) : (s.raiseTruncated).status = .truncated := rfl
@[simp] theorem State.raiseTruncated_errport (s : State) : (s.raiseTruncated).errport = s.errport := rfl
@[simp] theorem State.raiseTruncated_errinfo (s : State) : (s.raiseTruncated).errinfo = s.errinfo := rfl
@[simp] theorem State.raiseTruncated_src (s : State) : (s.raiseTruncated).src = s.src := rfl
@[simp] theorem State.raiseTruncated_snk (s : State) : (s.raiseTruncated).snk = s.snk := rfl
@[simp] theorem State.raiseTruncated_host (s : State) : (s.raiseTruncated).host = s.host := rfl
@[simp] theorem State.raiseTruncated_readout (s : State) : (s.raiseTruncated).readout = s.readout := rfl
@[simp] theorem State.raiseTruncated_draws (s : State) : (s.raiseTruncated).draws = s.draws := rfl

@[simp] theorem State.raiseIoFailure_seq (p : Port) (info : IoInfo) (s : State) : (s.raiseIoFailure p info).seq = .error := rfl
@[simp] theorem State.raiseIoFailure_opr (p : Port) (info : IoInfo) (s : State) : (s.raiseIoFailure p info).opr = s.opr := rfl
@[simp] theorem State.raiseIoFailure_wr (p : Port) (info : IoInfo) (s : State) : (s.raiseIoFailure p info).wr = s.wr := rfl
@[simp] theorem State.raiseIoFailure_rem (p : Port) (info : IoInfo) (s : State) : (s.raiseIoFailure p info).rem = s.rem := rfl
@[simp] theorem State.raiseIoFailure_gidx (p : Port) (info : IoInfo) (s : State) : (s.raiseIoFailure p info).gidx = s.gidx := rfl
@[simp] theorem State.raiseIoFailure_acc (p : Port) (info : IoInfo) (s : State) : (s.raiseIoFailure p info).acc = s.acc := rfl
@[simp] theorem State.raiseIoFailure_count (p : Port) (info : IoInfo) (s : State) : (s.raiseIoFailure p info).count = s.count := rfl
@[simp] theorem State.raiseIoFailure_result (p : Port) (info : IoInfo) (s : State) : (s.raiseIoFailure p info).result = s.result := rfl
@[simp] theorem State.raiseIoFailure_status (p : Port) (info : IoInfo) (s : State) : (s.raiseIoFailure p info).status = .ioFailure := rfl
@[simp] theorem State.raiseIoFailure_errport (p : Port) (info : IoInfo) (s : State) : (s.raiseIoFailure p info).errport = p := rfl
@[simp] theorem State.raiseIoFailure_errinfo (p : Port) (info : IoInfo) (s : State) : (s.raiseIoFailure p info).errinfo = info := rfl
@[simp] theorem State.raiseIoFailure_src (p : Port) (info : IoInfo) (s : State) : (s.raiseIoFailure p info).src = s.src := rfl
@[simp] theorem State.raiseIoFailure_snk (p : Port) (info : IoInfo) (s : State) : (s.raiseIoFailure p info).snk = s.snk := rfl
@[simp] theorem State.raiseIoFailure_host (p : Port) (info : IoInfo) (s : State) : (s.raiseIoFailure p info).host = s.host := rfl
@[simp] theorem State.raiseIoFailure_readout (p : Port) (info : IoInfo) (s : State) : (s.raiseIoFailure p info).readout = s.readout := rfl
@[simp] theorem State.raiseIoFailure_draws (p : Port) (info : IoInfo) (s : State) : (s.raiseIoFailure p info).draws = s.draws := rfl

@[simp] theorem State.finishEncode_seq (n : BitVec 5) (s : State) : (s.finishEncode n).seq = .done := rfl
@[simp] theorem State.finishEncode_opr (n : BitVec 5) (s : State) : (s.finishEncode n).opr = s.opr := rfl
@[simp] theorem State.finishEncode_wr (n : BitVec 5) (s : State) : (s.finishEncode n).wr = s.wr := rfl
@[simp] theorem State.finishEncode_rem (n : BitVec 5) (s : State) : (s.finishEncode n).rem = s.rem := rfl
@[simp] theorem State.finishEncode_gidx (n : BitVec 5) (s : State) : (s.finishEncode n).gidx = s.gidx := rfl
@[simp] theorem State.finishEncode_acc (n : BitVec 5) (s : State) : (s.finishEncode n).acc = s.acc := rfl
@[simp] theorem State.finishEncode_count (n : BitVec 5) (s : State) : (s.finishEncode n).count = n := rfl
@[simp] theorem State.finishEncode_result (n : BitVec 5) (s : State) : (s.finishEncode n).result = s.result := rfl
@[simp] theorem State.finishEncode_status (n : BitVec 5) (s : State) : (s.finishEncode n).status = .ok := rfl
@[simp] theorem State.finishEncode_errport (n : BitVec 5) (s : State) : (s.finishEncode n).errport = s.errport := rfl
@[simp] theorem State.finishEncode_errinfo (n : BitVec 5) (s : State) : (s.finishEncode n).errinfo = s.errinfo := rfl
@[simp] theorem State.finishEncode_src (n : BitVec 5) (s : State) : (s.finishEncode n).src = s.src := rfl
@[simp] theorem State.finishEncode_snk (n : BitVec 5) (s : State) : (s.finishEncode n).snk = s.snk := rfl
@[simp] theorem State.finishEncode_host (n : BitVec 5) (s : State) : (s.finishEncode n).host = s.host := rfl
@[simp] theorem State.finishEncode_readout (n : BitVec 5) (s : State) : (s.finishEncode n).readout = s.readout := rfl
@[simp] theorem State.finishEncode_draws (n : BitVec 5) (s : State) : (s.finishEncode n).draws = s.draws := rfl

@[simp] theorem State.finishDecode_seq (v : Operand) (n : BitVec 5) (s : State) : (s.finishDecode v n).seq = .done := rfl
@[simp] theorem State.finishDecode_opr (v : Operand) (n : BitVec 5) (s : State) : (s.finishDecode v n).opr = s.opr := rfl
@[simp] theorem State.finishDecode_wr (v : Operand) (n : BitVec 5) (s : State) : (s.finishDecode v n).wr = s.wr := rfl
@[simp] theorem State.finishDecode_rem (v : Operand) (n : BitVec 5) (s : State) : (s.finishDecode v n).rem = s.rem := rfl
@[simp] theorem State.finishDecode_gidx (v : Operand) (n : BitVec 5) (s : State) : (s.finishDecode v n).gidx = s.gidx := rfl
@[simp] theorem State.finishDecode_acc (v : Operand) (n : BitVec 5) (s : State) : (s.finishDecode v n).acc = s.acc := rfl
@[simp] theorem State.finishDecode_count (v : Operand) (n : BitVec 5) (s : State) : (s.finishDecode v n).count = n := rfl
@[simp] theorem State.finishDecode_result (v : Operand) (n : BitVec 5) (s : State) : (s.finishDecode v n).result = v := rfl
@[simp] theorem State.finishDecode_status (v : Operand) (n : BitVec 5) (s : State) : (s.finishDecode v n).status = .ok := rfl
@[simp] theorem State.finishDecode_errport (v : Operand) (n : BitVec 5) (s : State) : (s.finishDecode v n).errport = s.errport := rfl
@[simp] theorem State.finishDecode_errinfo (v : Operand) (n : BitVec 5) (s : State) : (s.finishDecode v n).errinfo = s.errinfo := rfl
@[simp] theorem State.finishDecode_src (v : Operand) (n : BitVec 5) (s : State) : (s.finishDecode v n).src = s.src := rfl
@[simp] theorem State.finishDecode_snk (v : Operand) (n : BitVec 5) (s : State) : (s.finishDecode v n).snk = s.snk := rfl
@[simp] theorem State.finishDecode_host (v : Operand) (n : BitVec 5) (s : State) : (s.finishDecode v n).host = s.host := rfl
@[simp] theorem State.finishDecode_readout (v : Operand) (n : BitVec 5) (s : State) : (s.finishDecode v n).readout = s.readout := rfl
@[simp] theorem State.finishDecode_draws (v : Operand) (n : BitVec 5) (s : State) : (s.finishDecode v n).draws = s.draws := rfl

@[simp] theorem State.start_seq (o : Op) (w : Width) (x : Operand) (s : State) : (s.start o w x).seq = runningSeq o := by
  cases o <;> rfl
@[simp] theorem State.start_opr (o : Op) (w : Width) (x : Operand) (s : State) : (s.start o w x).opr = o := by
  cases o <;> rfl
@[simp] theorem State.start_wr (o : Op) (w : Width) (x : Operand) (s : State) : (s.start o w x).wr = w := by
  cases o <;> rfl
@[simp] theorem State.start_gidx (o : Op) (w : Width) (x : Operand) (s : State) : (s.start o w x).gidx = 0 := by
  cases o <;> rfl
@[simp] theorem State.start_count (o : Op) (w : Width) (x : Operand) (s : State) : (s.start o w x).count = s.count := by
  cases o <;> rfl
@[simp] theorem State.start_result (o : Op) (w : Width) (x : Operand) (s : State) : (s.start o w x).result = s.result := by
  cases o <;> rfl
@[simp] theorem State.start_status (o : Op) (w : Width) (x : Operand) (s : State) : (s.start o w x).status = s.status := by
  cases o <;> rfl
@[simp] theorem State.start_errport (o : Op) (w : Width) (x : Operand) (s : State) : (s.start o w x).errport = s.errport := by
  cases o <;> rfl
@[simp] theorem State.start_errinfo (o : Op) (w : Width) (x : Operand) (s : State) : (s.start o w x).errinfo = s.errinfo := by
  cases o <;> rfl
@[simp] theorem State.start_src (o : Op) (w : Width) (x : Operand) (s : State) : (s.start o w x).src = s.src := by
  cases o <;> rfl
@[simp] theorem State.start_snk (o : Op) (w : Width) (x : Operand) (s : State) : (s.start o w x).snk = s.snk := by
  cases o <;> rfl
@[simp] theorem State.start_host (o : Op) (w : Width) (x : Operand) (s : State) : (s.start o w x).host = s.host := by
  cases o <;> rfl
@[simp] theorem State.start_readout (o : Op) (w : Width) (x : Operand) (s : State) : (s.start o w x).readout = s.readout := by
  cases o <;> rfl
@[simp] theorem State.start_draws (o : Op) (w : Width) (x : Operand) (s : State) : (s.start o w x).draws = s.draws := by
  cases o <;> rfl

@[simp] theorem State.start_encu_rem (w : Width) (x : Operand) (s : State) :
    (s.start .encu w x).rem = zextOperand w x := rfl
@[simp] theorem State.start_encs_rem (w : Width) (x : Operand) (s : State) :
    (s.start .encs w x).rem = sextOperand w x := rfl
@[simp] theorem State.start_decu_rem (w : Width) (x : Operand) (s : State) : (s.start .decu w x).rem = s.rem := rfl
@[simp] theorem State.start_decs_rem (w : Width) (x : Operand) (s : State) : (s.start .decs w x).rem = s.rem := rfl
@[simp] theorem State.start_encu_acc (w : Width) (x : Operand) (s : State) : (s.start .encu w x).acc = s.acc := rfl
@[simp] theorem State.start_encs_acc (w : Width) (x : Operand) (s : State) : (s.start .encs w x).acc = s.acc := rfl
@[simp] theorem State.start_decu_acc (w : Width) (x : Operand) (s : State) : (s.start .decu w x).acc = 0 := rfl
@[simp] theorem State.start_decs_acc (w : Width) (x : Operand) (s : State) : (s.start .decs w x).acc = 0 := rfl

/-! ### Reset -/

@[simp] theorem applyReset_seq (s : State) : (applyReset s).seq = .idle := rfl
@[simp] theorem abandon_host (s : State) : (abandon s).host = s.host := by
  unfold abandon; split
  · cases s.seq <;> rfl
  · rfl
@[simp] theorem abandon_readout (s : State) : (abandon s).readout = s.readout := by
  unfold abandon; split
  · cases s.seq <;> rfl
  · rfl
@[simp] theorem applyReset_host (s : State) : (applyReset s).host = s.host := by
  unfold applyReset; dsimp only; split <;> simp
@[simp] theorem applyReset_readout (s : State) : (applyReset s).readout = s.readout := by
  unfold applyReset; dsimp only; split <;> simp

/-! ### The ports -/

@[simp] theorem sinkAnswered_seq (a : SnkAnswer) (b : Byte) (s : State) :
    (sinkAnswered a b s).seq = s.seq := by
  cases a <;> rfl
@[simp] theorem sinkAnswered_opr (a : SnkAnswer) (b : Byte) (s : State) :
    (sinkAnswered a b s).opr = s.opr := by
  cases a <;> rfl
@[simp] theorem sinkAnswered_wr (a : SnkAnswer) (b : Byte) (s : State) :
    (sinkAnswered a b s).wr = s.wr := by
  cases a <;> rfl
@[simp] theorem sinkAnswered_rem (a : SnkAnswer) (b : Byte) (s : State) :
    (sinkAnswered a b s).rem = s.rem := by
  cases a <;> rfl
@[simp] theorem sinkAnswered_gidx (a : SnkAnswer) (b : Byte) (s : State) :
    (sinkAnswered a b s).gidx = s.gidx := by
  cases a <;> rfl
@[simp] theorem sinkAnswered_acc (a : SnkAnswer) (b : Byte) (s : State) :
    (sinkAnswered a b s).acc = s.acc := by
  cases a <;> rfl
@[simp] theorem sinkAnswered_count (a : SnkAnswer) (b : Byte) (s : State) :
    (sinkAnswered a b s).count = s.count := by
  cases a <;> rfl
@[simp] theorem sinkAnswered_result (a : SnkAnswer) (b : Byte) (s : State) :
    (sinkAnswered a b s).result = s.result := by
  cases a <;> rfl
@[simp] theorem sinkAnswered_status (a : SnkAnswer) (b : Byte) (s : State) :
    (sinkAnswered a b s).status = s.status := by
  cases a <;> rfl
@[simp] theorem sinkAnswered_errport (a : SnkAnswer) (b : Byte) (s : State) :
    (sinkAnswered a b s).errport = s.errport := by
  cases a <;> rfl
@[simp] theorem sinkAnswered_errinfo (a : SnkAnswer) (b : Byte) (s : State) :
    (sinkAnswered a b s).errinfo = s.errinfo := by
  cases a <;> rfl
@[simp] theorem sinkAnswered_src (a : SnkAnswer) (b : Byte) (s : State) :
    (sinkAnswered a b s).src = s.src := by
  cases a <;> rfl
@[simp] theorem sinkAnswered_host (a : SnkAnswer) (b : Byte) (s : State) :
    (sinkAnswered a b s).host = s.host := by
  cases a <;> rfl
@[simp] theorem sinkAnswered_readout (a : SnkAnswer) (b : Byte) (s : State) :
    (sinkAnswered a b s).readout = s.readout := by
  cases a <;> rfl
@[simp] theorem sinkAnswered_snk_listed (a : SnkAnswer) (b : Byte) (s : State) :
    (sinkAnswered a b s).snk.listed = s.snk.listed := by
  cases a <;> rfl
@[simp] theorem sinkAnswered_snk_rest (a : SnkAnswer) (b : Byte) (s : State) :
    (sinkAnswered a b s).snk.rest = s.snk.rest := by
  cases a <;> rfl
@[simp] theorem sinkAnswered_snk_shared (a : SnkAnswer) (b : Byte) (s : State) :
    (sinkAnswered a b s).snk.shared = s.snk.shared := by
  cases a <;> rfl
@[simp] theorem Source.answered_listed (a : SrcAnswer) (x : Source) : (x.answered a).listed = x.listed := by
  cases a <;> rfl
@[simp] theorem Source.answered_rest (a : SrcAnswer) (x : Source) : (x.answered a).rest = x.rest := by
  cases a <;> rfl
@[simp] theorem Source.answered_shared (a : SrcAnswer) (x : Source) : (x.answered a).shared = x.shared := by
  cases a <;> rfl
@[simp] theorem Source.answered_pos (a : SrcAnswer) (x : Source) :
    (x.answered a).pos = match a with
      | .byte _ => x.pos + 1
      | _ => x.pos := by
  cases a <;> rfl

end Sys2Proof.Machine
end

