-- ==== Sys2Proof/Laws/Ops.lean ====
section
/-! SUPPORT. For each shared operation, once, everything it can do: what the proofs cite instead of unfolding it. -/

namespace Sys2Proof.Machine

/-! ### Sequencing -/

theorem Seq.busy_eq_true (q : Seq) : q.busy = true ↔ q = .encoding ∨ q = .reading := by
  cases q <;> decide

theorem Seq.busy_eq_false (q : Seq) : q.busy = false ↔ q = .idle ∨ q = .done ∨ q = .error := by
  cases q <;> decide

theorem State.isRunning_iff (o : Op) (w : Width) (s : State) :
    s.isRunning o w = true ↔ s.seq = runningSeq o ∧ s.opr = o ∧ s.wr = w := by
  simp [State.isRunning, and_assoc]

theorem runningSeq_busy (o : Op) : (runningSeq o).busy = true := by cases o <;> rfl

/-! ### The ports -/

/-- One source answer uses up the first listed one, moves the position past a byte, and changes nothing else. -/
theorem srcNext_some {s t : State} {a : SrcAnswer} (h : srcNext s = some (a, t)) :
    ∃ d, t = { s with src := Source.answered a { s.src with listed := s.src.listed.tail }, draws := d } := by
  obtain ⟨seq, opr, wr, rem, gidx, acc, count, result, status, errport, errinfo, src, snk, host, readout, draws⟩ := s
  obtain ⟨listed, rest, pos, shared⟩ := src
  cases listed with
  | cons b more => simp only [srcNext, Option.some.injEq, Prod.mk.injEq] at h; obtain ⟨rfl, rfl⟩ := h; exact ⟨_, rfl⟩
  | nil =>
    cases rest with
    | silent => simp [srcNext] at h
    | always b => simp only [srcNext, Option.some.injEq, Prod.mk.injEq] at h; obtain ⟨rfl, rfl⟩ := h; exact ⟨_, rfl⟩
    | free => simp only [srcNext, Option.some.injEq, Prod.mk.injEq] at h; obtain ⟨rfl, rfl⟩ := h; exact ⟨_, rfl⟩

theorem srcNext_listed {s : State} {a : SrcAnswer} {more : List SrcAnswer} (h : s.src.listed = a :: more) :
    srcNext s = some (a, { s with src := Source.answered a { s.src with listed := more } }) := by
  simp [srcNext, h]

theorem srcNext_none_iff (s : State) : srcNext s = none ↔ s.src.listed = [] ∧ s.src.rest = .silent := by
  unfold srcNext; cases s.src.listed <;> cases s.src.rest <;> simp

/-- One sink answer uses up the first listed one and otherwise only has the effect of that answer. -/
theorem snkPut_some {s t : State} {a : SnkAnswer} {b : Byte} (h : snkPut b s = some (a, t)) :
    ∃ d, t = sinkAnswered a b { s with snk := { s.snk with listed := s.snk.listed.tail }, draws := d } := by
  obtain ⟨seq, opr, wr, rem, gidx, acc, count, result, status, errport, errinfo, src, snk, host, readout, draws⟩ := s
  obtain ⟨bytes, listed, rest, shared⟩ := snk
  cases listed with
  | cons c more => simp only [snkPut, Option.some.injEq, Prod.mk.injEq] at h; obtain ⟨rfl, rfl⟩ := h; exact ⟨_, rfl⟩
  | nil =>
    cases rest with
    | silent => simp [snkPut] at h
    | always c => simp only [snkPut, Option.some.injEq, Prod.mk.injEq] at h; obtain ⟨rfl, rfl⟩ := h; exact ⟨_, rfl⟩
    | free => simp only [snkPut, Option.some.injEq, Prod.mk.injEq] at h; obtain ⟨rfl, rfl⟩ := h; exact ⟨_, rfl⟩

theorem snkPut_none_iff (b : Byte) (s : State) : snkPut b s = none ↔ s.snk.listed = [] ∧ s.snk.rest = .silent := by
  unfold snkPut; cases s.snk.listed <;> cases s.snk.rest <;> simp

theorem sinkAnswered_ok_bytes (b : Byte) (s : State) :
    (sinkAnswered .ok b s).snk.bytes = s.snk.bytes ++ [b] := rfl

/-- After any answer the bytes the sink held are still there, with at most one more. -/
theorem sinkAnswered_bytes (a : SnkAnswer) (b : Byte) (s : State) :
    ∃ kept : List Byte, kept.length ≤ 1 ∧ (sinkAnswered a b s).snk.bytes = s.snk.bytes ++ kept := by
  cases a with
  | ok => exact ⟨[b], by simp, rfl⟩
  | fail info =>
    refine ⟨(Config.failedPutLeft s.draws b).toList, ?_, rfl⟩
    cases Config.failedPutLeft s.draws b <;> simp

/-! ### Commands -/

/-- The group step of an operation at a width. -/
def groupStepOf (o : Op) (w : Width) : State → Result :=
  match o with
  | .encu => encuGroupStep
  | .encs => encsGroupStep
  | .decu => decuGroupStep w
  | .decs => decsGroupStep Config.params w

/-- Every instruction is the command of its operation and width. -/
theorem exec_eq_command (i : Instr) (s : State) :
    exec i s = command i.op i.width i.operand (groupStepOf i.op i.width) s := by
  cases i <;> rfl

@[simp] theorem Instr.op_of (o : Op) (w : Width) (x : Operand) : (Instr.of o w x).op = o := by
  cases o <;> cases w <;> rfl
@[simp] theorem Instr.width_of (o : Op) (w : Width) (x : Operand) : (Instr.of o w x).width = w := by
  cases o <;> cases w <;> rfl
@[simp] theorem Instr.operand_of (o : Op) (w : Width) (x : Operand) : (Instr.of o w x).operand = x := by
  cases o <;> cases w <;> rfl
theorem Instr.of_fields (i : Instr) : Instr.of i.op i.width i.operand = i := by
  cases i <;> rfl

theorem exec_of (o : Op) (w : Width) (x : Operand) (s : State) :
    exec (.of o w x) s = command o w x (groupStepOf o w) s := by
  rw [exec_eq_command]; simp

/-- From IDLE, DONE or ERROR a command is accepted. -/
theorem command_accept {o : Op} {w : Width} {x : Operand} {g : State → Result} {s : State} (h : s.seq.busy = false) :
    command o w x g s = accept o w x s := by
  simp [command, h]

/-- While it runs, a command takes its group step. -/
theorem command_running {o : Op} {w : Width} {x : Operand} {g : State → Result} {s : State}
    (h : s.isRunning o w = true) : command o w x g s = g s := by
  have hs := ((State.isRunning_iff o w s).1 h).1
  simp [command, h, hs, runningSeq_busy]

/-- While another command runs, it is held. -/
theorem command_held {o : Op} {w : Width} {x : Operand} {g : State → Result} {s : State}
    (hb : s.seq.busy = true) (h : s.isRunning o w = false) : command o w x g s = .next s := by
  simp [command, hb, h]

/-- What a command's step can do. -/
theorem command_cases (o : Op) (w : Width) (x : Operand) (g : State → Result) (s : State) :
    (s.seq.busy = false ∧ command o w x g s = accept o w x s) ∨
    (s.isRunning o w = true ∧ command o w x g s = g s) ∨
    (s.seq.busy = true ∧ s.isRunning o w = false ∧ command o w x g s = .next s) := by
  cases hb : s.seq.busy with
  | false => exact .inl ⟨rfl, command_accept hb⟩
  | true =>
    cases hr : s.isRunning o w with
    | true => exact .inr (.inl ⟨rfl, command_running hr⟩)
    | false => exact .inr (.inr ⟨rfl, rfl, command_held hb hr⟩)

theorem accept_owned {o : Op} {w : Width} {x : Operand} {s : State} (h : s.ownsStreams = true) :
    accept o w x s = .next (s.start o w x) := by simp [accept, h]

theorem accept_next {o : Op} {w : Width} {x : Operand} {s t : State} (h : accept o w x s = .next t) :
    s.ownsStreams = true ∧ t = s.start o w x := by
  unfold accept at h
  split at h
  · next ho => exact ⟨ho, by injection h with h; exact h.symm⟩
  · cases h

/-! ### The group steps -/

/-- What an encoder's group step can do when it answers a next state. -/
theorem emitGroup_next {r : Operand} {last : Bool} {b : Byte} {s t : State} (h : emitGroup r last b s = .next t) :
    (∃ info u, snkPut b { s with rem := r } = some (.fail info, u) ∧ t = u.raiseIoFailure .snk info) ∨
    (∃ u, snkPut b { s with rem := r } = some (.ok, u) ∧
      t = if last then ({ u with gidx := u.gidx + 1 } : State).finishEncode (u.gidx + 1)
          else { u with gidx := u.gidx + 1 }) := by
  unfold emitGroup at h
  split at h
  · cases h
  · next info u he => exact .inl ⟨info, u, he, by injection h with h; exact h.symm⟩
  · next u he =>
    refine .inr ⟨u, he, ?_⟩
    split at h <;> injection h with h <;> simp_all

/-- What a decoder's read step can do when it answers a next state. -/
theorem readGroup_next {f : Byte → State → Result} {s t : State} (h : readGroup f s = .next t) :
    (∃ u, srcNext s = some (.endOfInput, u) ∧ t = u.raiseTruncated) ∨
    (∃ info u, srcNext s = some (.fail info, u) ∧ t = u.raiseIoFailure .src info) ∨
    (∃ b u, srcNext s = some (.byte b, u) ∧
      f b { u with acc := accWrite u.acc u.gidx.toNat (payload b) } = .next t) := by
  unfold readGroup at h
  split at h
  · cases h
  · next u he => exact .inl ⟨u, he, by injection h with h; exact h.symm⟩
  · next info u he => exact .inr (.inl ⟨info, u, he, by injection h with h; exact h.symm⟩)
  · next b u he => exact .inr (.inr ⟨b, u, he, h⟩)

/-- What DECU does with a byte: Overflow, the next group, or the end. -/
theorem decuByte_next {w : Width} {b : Byte} {s t : State} (h : decuByte w b s = .next t) :
    ((payloadOverflow w s.acc = true ∨ (contBit b = true ∧ atBound s.gidx.toNat w.groups = true)) ∧
      t = s.raiseOverflow) ∨
    (payloadOverflow w s.acc = false ∧ contBit b = true ∧ atBound s.gidx.toNat w.groups = false ∧
      t = { s with gidx := s.gidx + 1 }) ∨
    (payloadOverflow w s.acc = false ∧ contBit b = false ∧
      t = s.finishDecode (unsignedResult w s.acc) (s.gidx + 1)) := by
  unfold decuByte at h
  cases ho : payloadOverflow w s.acc <;> cases hc : contBit b <;> cases hb : atBound s.gidx.toNat w.groups <;>
    simp_all

/-- What DECS does with a byte: Overflow, the next group, or the end. -/
theorem decsByte_next {p : Params} {w : Width} {b : Byte} {s t : State} (h : decsByte p w b s = .next t) :
    (((contBit b = true ∧ atBound s.gidx.toNat (w.signedGroups p) = true) ∨
      (contBit b = false ∧ fitsS w (sextAcc s.acc (s.gidx.toNat + 1)) = false)) ∧ t = s.raiseOverflow) ∨
    (contBit b = true ∧ atBound s.gidx.toNat (w.signedGroups p) = false ∧ t = { s with gidx := s.gidx + 1 }) ∨
    (contBit b = false ∧ fitsS w (sextAcc s.acc (s.gidx.toNat + 1)) = true ∧
      t = s.finishDecode (signedResult w (sextAcc s.acc (s.gidx.toNat + 1))) (s.gidx + 1)) := by
  unfold decsByte at h
  cases hc : contBit b <;> cases hb : atBound s.gidx.toNat (w.signedGroups p) <;>
    cases hf : fitsS w (sextAcc s.acc (s.gidx.toNat + 1)) <;> simp_all

/-! ### The host's side -/

theorem readRegister_next {r : ResultReg} {s t : State} (h : readRegister r s = .next t) :
    s.readable r = true ∧ t = { s with readout := some (s.valueOf r) } := by
  unfold readRegister at h
  split at h
  · next hr => exact ⟨hr, by injection h with h; exact h.symm⟩
  · cases h

theorem changeStreams_next {f : State → State} {s t : State} (h : changeStreams f s = .next t) :
    s.seq.busy = false ∧ t = f s := by
  unfold changeStreams at h
  split at h
  · cases h
  · next hb => exact ⟨by simpa using hb, by injection h with h; exact h.symm⟩

/-- What the pending `SrcNext` at a reset can do to the source: use up one answer, and move past one byte or none. -/
theorem Source.movedAtReset_spec (x : Source) :
    x.movedAtReset.listed = x.listed.tail ∧ x.movedAtReset.rest = x.rest ∧ x.movedAtReset.shared = x.shared ∧
      (x.movedAtReset.pos = x.pos + 1 ∨ x.movedAtReset.pos = x.pos) := by
  obtain ⟨listed, rest, pos, shared⟩ := x
  rcases listed with _ | ⟨_ | _ | _, more⟩
  · rcases rest with _ | (_ | _ | _) | _ <;> simp [Source.movedAtReset, Source.answered]
  all_goals simp [Source.movedAtReset, Source.answered]

/-- What abandoning a command does: a free value is used, and at most the port of the command has moved. -/
theorem abandon_cases (s : State) :
    abandon s = { s with draws := s.draws + 1 } ∨
    (s.seq = .encoding ∧
      abandon s = { s with snk := s.snk.movedAtReset (pendingByte s), draws := s.draws + 1 }) ∨
    (s.seq = .reading ∧ abandon s = { s with src := s.src.movedAtReset, draws := s.draws + 1 }) ∨
    (s.seq.busy = false ∧ abandon s = s) := by
  unfold abandon
  split
  · cases hq : s.seq <;> simp [Seq.busy]
  · exact .inl rfl

/-- A step is the core's own when the host has nothing to do or an `Issue` is held. -/
theorem machineStep_core {s : State} (h : s.host = [] ∨ s.issueHeld = true) : machineStep s = coreStep s := by
  unfold machineStep
  rcases h with h | h
  · simp [h, State.issueHeld]
  · simp [h]

/-- Otherwise it is the host's next action. -/
theorem machineStep_host {s : State} {a : HostAction} {more : List HostAction} (h : s.host = a :: more)
    (hh : s.issueHeld = false) : machineStep s = hostAct a { s with host := more } := by
  simp [machineStep, hh, h]

theorem State.issueHeld_iff (s : State) :
    s.issueHeld = true ↔ s.seq.busy = true ∧ ∃ cmd x more, s.host = .issue cmd x :: more := by
  unfold State.issueHeld
  split
  · next cmd x more h => simp [h]
  · next h => simp; intro _ c x m hc; exact absurd hc (h c x m)

theorem coreStep_busy {s : State} (h : s.seq.busy = true) : coreStep s = exec (Instr.of s.opr s.wr 0) s := by
  simp [coreStep, h]

theorem coreStep_waiting {s : State} (h : s.seq.busy = false) : coreStep s = .next s := by
  simp [coreStep, h]

end Sys2Proof.Machine
end

