-- ==== Sys2Proof/Laws/PerInstr.lean ====
section
/-! SUPPORT. One lemma per constructor: the command word of each instruction is `(WC << 2) | OP` with RSV = 0
(30_encoding.md R78), whatever its operand. -/

namespace Sys2Proof.Laws.CommandWord

/-- The command word's three fields and its number. -/
def Statement (i : Instr) : Prop :=
  rsvField (encode i).1 = 0 ∧ widthField (encode i).1 = i.width.code ∧ opField (encode i).1 = i.op.code ∧
    (encode i).1.toNat = 4 * i.width.code.toNat + i.op.code.toNat

/-- The fields of every command word. -/
theorem fields_of_commandWord (o : Op) (w : Width) :
    rsvField (commandWord o w) = 0 ∧ widthField (commandWord o w) = w.code ∧ opField (commandWord o w) = o.code ∧
      (commandWord o w).toNat = 4 * w.code.toNat + o.code.toNat := by
  cases o <;> cases w <;> decide

theorem encuW8 (operand : Operand) : Statement (.encuW8 operand) :=
  fields_of_commandWord .encu .w8

theorem encuW16 (operand : Operand) : Statement (.encuW16 operand) :=
  fields_of_commandWord .encu .w16

theorem encuW32 (operand : Operand) : Statement (.encuW32 operand) :=
  fields_of_commandWord .encu .w32

theorem encuW64 (operand : Operand) : Statement (.encuW64 operand) :=
  fields_of_commandWord .encu .w64

theorem encuW128 (operand : Operand) : Statement (.encuW128 operand) :=
  fields_of_commandWord .encu .w128

theorem encsW8 (operand : Operand) : Statement (.encsW8 operand) :=
  fields_of_commandWord .encs .w8

theorem encsW16 (operand : Operand) : Statement (.encsW16 operand) :=
  fields_of_commandWord .encs .w16

theorem encsW32 (operand : Operand) : Statement (.encsW32 operand) :=
  fields_of_commandWord .encs .w32

theorem encsW64 (operand : Operand) : Statement (.encsW64 operand) :=
  fields_of_commandWord .encs .w64

theorem encsW128 (operand : Operand) : Statement (.encsW128 operand) :=
  fields_of_commandWord .encs .w128

theorem decuW8 (operand : Operand) : Statement (.decuW8 operand) :=
  fields_of_commandWord .decu .w8

theorem decuW16 (operand : Operand) : Statement (.decuW16 operand) :=
  fields_of_commandWord .decu .w16

theorem decuW32 (operand : Operand) : Statement (.decuW32 operand) :=
  fields_of_commandWord .decu .w32

theorem decuW64 (operand : Operand) : Statement (.decuW64 operand) :=
  fields_of_commandWord .decu .w64

theorem decuW128 (operand : Operand) : Statement (.decuW128 operand) :=
  fields_of_commandWord .decu .w128

theorem decsW8 (operand : Operand) : Statement (.decsW8 operand) :=
  fields_of_commandWord .decs .w8

theorem decsW16 (operand : Operand) : Statement (.decsW16 operand) :=
  fields_of_commandWord .decs .w16

theorem decsW32 (operand : Operand) : Statement (.decsW32 operand) :=
  fields_of_commandWord .decs .w32

theorem decsW64 (operand : Operand) : Statement (.decsW64 operand) :=
  fields_of_commandWord .decs .w64

theorem decsW128 (operand : Operand) : Statement (.decsW128 operand) :=
  fields_of_commandWord .decs .w128

end Sys2Proof.Laws.CommandWord
end

