-- ==== Sys2Proof/Laws/Run.lean ====
section
/-! SUPPORT. A run of the machine, one step at a time, and the step in the two situations a whole command meets. -/

namespace Sys2Proof.Machine

@[simp] theorem core_run_zero (s : State) : Sys2Proof.core.run 0 s = .next s := rfl

/-- One step, then the rest of the run. -/
theorem core_run_succ {k : Nat} {s t : State} (h : step s = .next t) :
    Sys2Proof.core.run (k + 1) s = Sys2Proof.core.run k t := by
  simp only [Host.Core.run, show Sys2Proof.core.step s = .next t from h]

/-- The step that accepts the command of operation `o` at width `w` from an `Issue` of its word. -/
theorem step_accepts {o : Op} {w : Width} {x : Operand} {s : State} {more : List HostAction}
    (hb : s.seq.busy = false) (ho : s.ownsStreams = true) (hh : s.host = .issue (commandWord o w) x :: more) :
    step s = .next (({ s with host := more } : State).start o w x) := by
  have hheld : s.issueHeld = false := by simp [State.issueHeld, hh, hb]
  have hd : decodeWord (commandWord o w) x = .ok (.of o w x) := by cases o <;> cases w <;> rfl
  rw [step, machineStep_host hh hheld]
  simp only [hostAct, issue, hd, exec_of]
  exact (command_accept (s := { s with host := more }) hb).trans (accept_owned (s := { s with host := more }) ho)

/-- The step of a running command with nothing from the host is its group step. -/
theorem step_groupStep {o : Op} {w : Width} {s : State} (hr : s.isRunning o w = true) (hh : s.host = []) :
    step s = groupStepOf o w s := by
  obtain ⟨hq, rfl, rfl⟩ := (State.isRunning_iff o w s).1 hr
  have hb : s.seq.busy = true := by rw [hq]; exact runningSeq_busy _
  rw [step, machineStep_core (.inl hh), coreStep_busy hb, exec_of, command_running hr]

end Sys2Proof.Machine
end

