-- ==== Sys2Proof/Tests/Slice0.lean ====
section
/-! SUPPORT. The model's own tests. Expected values are the spec's: the opcode map (30_encoding.md R78), the vectors of
95_test_vectors.md §1 and §2, and the rules named. Then, for each statement with hypotheses, a state and operands that
meet them all. -/

namespace Sys2Proof.Tests

open Sys2Proof.Machine

/-! ### Helpers -/

/-- The next state of an outcome, where there is one. -/
def nextOf (r : Result) : Option State :=
  match r with
  | .next s => some s
  | _ => none

/-- Both ports the instance's own: a source of these answers and then End, an empty sink that accepts. -/
def ready (answers : List SrcAnswer) : State :=
  { State.reset with
    src := { listed := answers, rest := .always .endOfInput, pos := 0, shared := false }
    snk := { bytes := [], listed := [], rest := .always .ok, shared := false } }

/-- An encoder at group `k` with `r` left. -/
def encodingAt (o : Op) (w : Width) (r : Operand) (k : BitVec 5) : State :=
  { ready [] with seq := .encoding, opr := o, wr := w, rem := r, gidx := k }

/-- A decoder at group `k` with `a` accumulated. -/
def readingAt (o : Op) (w : Width) (a : Acc) (k : BitVec 5) (answers : List SrcAnswer) : State :=
  { ready answers with seq := .reading, opr := o, wr := w, acc := a, gidx := k }

/-- What an encoder's step shows: the bytes emitted, STATE and COUNT. -/
def emitted (r : Result) : Option (List Byte × Seq × BitVec 5) :=
  (nextOf r).map fun t => (t.snk.bytes, t.seq, t.count)

/-- What a decoder's step shows: STATE, STATUS, RESULT and COUNT. -/
def decoded (r : Result) : Option (Seq × Status × Operand × BitVec 5) :=
  (nextOf r).map fun t => (t.seq, t.status, t.result, t.count)

/-! ### Decoding: words written out from R74 and R78, RSV then WC then OP -/

theorem test_decode_encu : decodeWord 0b000_001_00 300 = .ok (.encuW16 300) := by decide
theorem test_decode_encs : decodeWord 0b000_011_01 7 = .ok (.encsW64 7) := by decide
theorem test_decode_decu : decodeWord 0b000_100_10 0 = .ok (.decuW128 0) := by decide
theorem test_decode_decs : decodeWord 0b000_000_11 0 = .ok (.decsW8 0) := by decide
theorem test_decode_first_reserved : decodeWord 0b000_101_00 0 = .error .widthCode := by decide
theorem test_decode_rsv : decodeWord 0b001_000_00 0 = .error .rsvBits := by decide
theorem test_decode_not_built :
    decodeIn { widths := [.w32, .w64], slebExtraGroup := 0 } 0b000_000_00 0 = .error .widthNotBuilt := by decide
theorem test_table_word : decodeTableWord 8 0x13 = some (.decsW128 0) := by decide
theorem test_table_word_reserved : decodeTableWord 8 0x1C = none := by decide

/-! ### Well-formedness: an ill-formed term for each check -/

theorem test_wf_width : (Instr.encuW8 0).wfIn { widths := [.w32, .w64], slebExtraGroup := 0 } = false := by decide
theorem test_wf_unsigned_dec : (AsmLine.encu .w8 (.dec 256)).wf = false := by decide
theorem test_wf_unsigned_negative : (AsmLine.encu .w8 (.dec (-1))).wf = false := by decide
theorem test_wf_unsigned_hex : (AsmLine.encu .w8 (.hex 0x1FF)).wf = false := by decide
theorem test_wf_signed_dec : (AsmLine.encs .w8 (.dec 128)).wf = false := by decide
theorem test_wf_signed_hex : (AsmLine.encs .w8 (.hex 0x100)).wf = false := by decide

/-! ### The assembler and its listing (R81; programs P1 and P3) -/

theorem test_read_line :
    readLine ['E', 'N', 'C', 'S', '.', 'W', '1', '6', ' ', '-', '2', ' ', ';', 'x'] = some (.encs .w16 (.dec (-2))) := by
  decide
theorem test_read_line_hex :
    readLine ['E', 'N', 'C', 'U', '.', 'W', '8', ' ', '0', 'x', '1', 'F', 'f'] = some (.encu .w8 (.hex 0x1FF)) := by
  decide
theorem test_assemble_negative :
    assemble (.encs .w16 (.dec (-2))) = some (0x05, 0xFFFFFFFFFFFFFFFFFFFFFFFFFFFFFFFE) := by decide
theorem test_listing_operation : (listing (0x0D, 0)).take 8 = ['c', 'm', 'd', '=', '0', 'x', '0', 'D'] := by decide

/-! ### ENCU (95_test_vectors.md 2.1) -/

theorem test_encuW8_first : emitted (exec (.encuW8 0) (encodingAt .encu .w8 255 0)) = some ([0xFF], .encoding, 0) := by
  decide
theorem test_encuW8_zero : emitted (exec (.encuW8 0) (encodingAt .encu .w8 0 0)) = some ([0x00], .done, 1) := by decide
theorem test_encuW16_300 : emitted (exec (.encuW16 0) (encodingAt .encu .w16 300 0)) = some ([0xAC], .encoding, 0) := by
  decide
theorem test_encuW32 : emitted (exec (.encuW32 0) (encodingAt .encu .w32 624485 0)) = some ([0xE5], .encoding, 0) := by
  decide
theorem test_encuW64_last : emitted (exec (.encuW64 0) (encodingAt .encu .w64 1 9)) = some ([0x01], .done, 10) := by
  decide
theorem test_encuW128_last : emitted (exec (.encuW128 0) (encodingAt .encu .w128 3 18)) = some ([0x03], .done, 19) := by
  decide
theorem test_encuW8_ignores_high_bits : (nextOf (exec (.encuW8 0x1FF) (ready []))).map (·.rem) = some 255 := by decide

/-! ### ENCS (95_test_vectors.md 2.2) -/

theorem test_encsW8_min : emitted (exec (.encsW8 0) (encodingAt .encs .w8 (-128) 0)) = some ([0x80], .encoding, 0) := by
  decide
theorem test_encsW8_64 : emitted (exec (.encsW8 0) (encodingAt .encs .w8 64 0)) = some ([0xC0], .encoding, 0) := by
  decide
theorem test_encsW16_minus2 : emitted (exec (.encsW16 0) (encodingAt .encs .w16 (-2) 0)) = some ([0x7E], .done, 1) := by
  decide
theorem test_encsW32 : emitted (exec (.encsW32 0) (encodingAt .encs .w32 (-123456) 0)) = some ([0xC0], .encoding, 0) := by
  decide
theorem test_encsW64_last : emitted (exec (.encsW64 0) (encodingAt .encs .w64 (-1) 9)) = some ([0x7F], .done, 10) := by
  decide
theorem test_encsW128_last : emitted (exec (.encsW128 0) (encodingAt .encs .w128 (-2) 18)) = some ([0x7E], .done, 19) := by
  decide +kernel
theorem test_encsW8_sign_extends : (nextOf (exec (.encsW8 0x80) (ready []))).map (·.rem) = some (-128) := by decide

/-! ### DECU (95_test_vectors.md 2.3) -/

theorem test_decuW8_255 :
    decoded (exec (.decuW8 0) (readingAt .decu .w8 0x7F 1 [.byte 0x01])) = some (.done, .ok, 255, 2) := by decide
theorem test_decuW8_256 :
    decoded (exec (.decuW8 0) (readingAt .decu .w8 0x7F 1 [.byte 0x02])) = some (.error, .overflow, 0, 0) := by decide
theorem test_decuW16_300 :
    decoded (exec (.decuW16 0) (readingAt .decu .w16 0x2C 1 [.byte 0x02])) = some (.done, .ok, 300, 2) := by decide
theorem test_decuW32_bound :
    decoded (exec (.decuW32 0) (readingAt .decu .w32 0 4 [.byte 0x8F])) = some (.error, .overflow, 0, 0) := by decide
theorem test_decuW64_noncanonical :
    decoded (exec (.decuW64 0) (readingAt .decu .w64 0 9 [.byte 0x00])) = some (.done, .ok, 0, 10) := by decide
theorem test_decuW128_max :
    decoded (exec (.decuW128 0) (readingAt .decu .w128 (2 ^ 126 - 1) 18 [.byte 0x03])) =
      some (.done, .ok, -1, 19) := by decide +kernel
theorem test_decuW8_empty :
    decoded (exec (.decuW8 0) (readingAt .decu .w8 0 0 [])) = some (.error, .truncated, 0, 0) := by decide

/-! ### DECS (95_test_vectors.md 2.4) -/

theorem test_decsW8_minus64 :
    decoded (exec (.decsW8 0) (readingAt .decs .w8 0 0 [.byte 0x40])) = some (.done, .ok, -64, 1) := by decide
theorem test_decsW8_128 :
    decoded (exec (.decsW8 0) (readingAt .decs .w8 0 1 [.byte 0x01])) = some (.error, .overflow, 0, 0) := by decide
theorem test_decsW16_min :
    decoded (exec (.decsW16 0) (readingAt .decs .w16 0 2 [.byte 0x7E])) = some (.done, .ok, -32768, 3) := by decide
theorem test_decsW32_too_small :
    decoded (exec (.decsW32 0) (readingAt .decs .w32 0 4 [.byte 0x77])) = some (.error, .overflow, 0, 0) := by decide
theorem test_decsW64_min :
    decoded (exec (.decsW64 0) (readingAt .decs .w64 0 9 [.byte 0x7F])) = some (.done, .ok, -(2 ^ 63), 10) := by decide +kernel
theorem test_decsW128_min :
    decoded (exec (.decsW128 0) (readingAt .decs .w128 0 18 [.byte 0x7E])) = some (.done, .ok, -(2 ^ 127), 19) := by
  decide +kernel
theorem test_decs_extra_group :
    (nextOf (decsGroupStep { widths := Config.params.widths, slebExtraGroup := 1 } .w8
      (readingAt .decs .w8 0x3FFF 2 [.byte 0x7F]))).map (fun t => (t.seq, t.result)) = some (.done, -1) := by decide

/-! ### The host's side (95_test_vectors.md 2.5) -/

theorem test_fetch_word_steps :
    (nextOf (step (State.reset.withFetchWord 8 0x12))).map (fun t => (t.seq, t.opr, t.wr, t.host)) =
      some (.reading, .decu, .w128, []) := by decide
theorem test_result_unreadable_after_encu :
    ({ ready [] with seq := .done, opr := .encu } : State).readable .result = false := by decide
theorem test_final_view :
    ({ ready [] with seq := .done, opr := .decs, count := 1, result := -2 } : State).finalView =
      ([.state 3, .status 0, .count 1, .result (-2)], [], 0) := by decide
theorem test_run_over : (ready []).runOver = true ∧ (encodingAt .encu .w8 0 0).runOver = false := by decide

/-! ### Witnesses: for each statement with hypotheses, what meets them -/

theorem test_witness_DecodeAndEncodeAgree :
    decodeWord 0x13 5 = .ok (.decsW128 5) ∧ encode (.decsW128 5) = (0x13, 5) := by decide

theorem test_witness_ReservedWordsAreRefused :
    ∃ (s : State) (cmd : Command) (x : Operand) (more : List HostAction),
      s.seq.busy = false ∧ s.host = .issue cmd x :: more ∧ (5 ≤ cmd.toNat / 4 % 8 ∨ cmd.toNat / 32 ≠ 0) :=
  ⟨{ ready [] with host := [.issue 0x14 0] }, 0x14, 0, [], by decide⟩

theorem test_witness_WidthsAreAParameter :
    Width.w32 ∈ ({ widths := [.w32], slebExtraGroup := 0 } : Params).widths ∧
      Width.w8 ∉ ({ widths := [.w32], slebExtraGroup := 0 } : Params).widths ∧
      5 ≤ (0x14 : Command).toNat / 4 % 8 ∧ (0x20 : Command).toNat / 32 ≠ 0 ∧
      decodeIn { widths := [.w32], slebExtraGroup := 0 } 0x0B 7 = .ok (.decsW32 7) := by decide

theorem test_witness_AssemblerEmitsTheValueOrNothing :
    ((0 : Int) ≤ 255 ∧ (255 : Int) < 2 ^ Width.w8.bits ∧ (2 : Int) ^ Width.w8.bits ≤ 256 ∧ (-1 : Int) < 0) ∧
      (-(2 ^ (Width.w8.bits - 1) : Int) ≤ -128 ∧ (127 : Int) < 2 ^ (Width.w8.bits - 1) ∧
        (-129 : Int) < -(2 ^ (Width.w8.bits - 1)) ∧ (2 : Int) ^ (Width.w8.bits - 1) ≤ 128) ∧
      (0xFF < 2 ^ Width.w8.bits ∧ 2 ^ Width.w8.bits ≤ 0x100) := by decide

theorem test_witness_StepRunsTheDecodedInstruction :
    (∃ (s : State) (cmd : Command) (x : Operand) (more : List HostAction) (i : Instr),
      s.seq.busy = false ∧ s.host = .issue cmd x :: more ∧ decodeWord cmd x = .ok i) ∧
    (∃ s : State, s.seq.busy = true ∧ s.host = []) ∧
    (∃ (s : State) (cmd : Command) (x : Operand) (more : List HostAction),
      s.seq.busy = true ∧ s.host = .issue cmd x :: more) ∧
    ∃ (s : State) (more : List HostAction), s.seq.busy = true ∧ s.host = .letRun :: more :=
  ⟨⟨{ ready [] with host := [.issue 0x04 300] }, 0x04, 300, [], .encuW16 300, by decide⟩,
    ⟨encodingAt .encu .w16 300 0, by decide⟩,
    ⟨{ encodingAt .encu .w16 300 0 with host := [.issue 0x02 0] }, 0x02, 0, [], by decide⟩,
    ⟨{ encodingAt .encu .w16 300 0 with host := [.letRun, .reset] }, [.reset], by decide⟩⟩

theorem test_witness_WaitsWithoutACommand : (ready []).seq.busy = false ∧ (ready []).host = [] := by decide

theorem test_witness_IssueIsHeldWhileBusy :
    (∃ (s t : State) (cmd : Command) (x : Operand) (more : List HostAction),
      s.seq.busy = true ∧ s.host = .issue cmd x :: more ∧ step s = .next t) ∧
    ∃ (s : State) (cmd : Command) (x : Operand) (more : List HostAction) (i : Instr),
      s.seq.busy = false ∧ s.host = .issue cmd x :: more ∧ decodeWord cmd x = .ok i :=
  ⟨⟨{ encodingAt .encu .w16 300 0 with host := [.issue 0x02 0] }, _, 0x02, 0, [], rfl, rfl, rfl⟩,
    ⟨{ ready [] with host := [.issue 0x02 0] }, 0x02, 0, [], .decuW8 0, by decide⟩⟩

theorem test_witness_HeldCommandHasNoEffect :
    (encodingAt .encu .w16 300 0).seq.busy = true ∧ Op.decu ≠ (encodingAt .encu .w16 300 0).opr ∧
      Width.w8 ≠ (encodingAt .encu .w16 300 0).wr := by decide

theorem test_witness_ResultInterfaceReads :
    (∃ s : State, s.host = [.read .count] ∧ s.seq = .done) ∧
    (∃ s : State, s.host = [.read .status] ∧ s.seq = .error) ∧
    (∃ s : State, s.host = [.read .state] ∧ s.seq = .reading) ∧
    (∃ s : State, s.host = [.read .result] ∧ s.seq = .done ∧ s.opr = .decs) ∧
    (∃ s : State, s.host = [.read .errport] ∧ s.seq = .error ∧ s.status = .ioFailure) ∧
    (∃ s : State, s.host = [.read .errinfo] ∧ s.seq = .error ∧ s.status = .ioFailure) ∧
    (∃ s : State, s.host = [.read .status] ∧ s.seq ≠ .done ∧ s.seq ≠ .error) ∧
    (∃ s : State, s.host = [.read .count] ∧ s.seq ≠ .done) ∧
    (∃ s : State, s.host = [.read .result] ∧ s.seq = .done ∧ s.opr = .encu) ∧
    ∃ s : State, s.host = [.read .errinfo] ∧ s.seq = .error ∧ s.status ≠ .ioFailure :=
  ⟨⟨{ ready [] with host := [.read .count], seq := .done }, by decide⟩,
    ⟨{ ready [] with host := [.read .status], seq := .error, status := .overflow }, by decide⟩,
    ⟨{ readingAt .decu .w8 0 0 [] with host := [.read .state] }, by decide⟩,
    ⟨{ ready [] with host := [.read .result], seq := .done, opr := .decs }, by decide⟩,
    ⟨{ ready [] with host := [.read .errport], seq := .error, status := .ioFailure }, by decide⟩,
    ⟨{ ready [] with host := [.read .errinfo], seq := .error, status := .ioFailure }, by decide⟩,
    ⟨{ ready [] with host := [.read .status] }, by decide⟩,
    ⟨{ ready [] with host := [.read .count], seq := .error }, by decide⟩,
    ⟨{ ready [] with host := [.read .result], seq := .done, opr := .encu }, by decide⟩,
    ⟨{ ready [] with host := [.read .errinfo], seq := .error, status := .truncated }, by decide⟩⟩

theorem test_witness_ResetAtAnyTime :
    (∃ s : State, s.host = [.reset] ∧ s.seq.busy = false) ∧ (∃ s : State, s.host = [.reset] ∧ s.seq = .reading) ∧
      ∃ s : State, s.host = [.reset] ∧ s.seq = .encoding ∧ s.opr = .encs :=
  ⟨⟨{ ready [] with host := [.reset] }, by decide⟩, ⟨{ readingAt .decu .w8 0 0 [] with host := [.reset] }, by decide⟩,
    ⟨{ encodingAt .encs .w8 1 0 with host := [.reset] }, by decide⟩⟩

theorem test_witness_StreamChangesOnlyBetweenCommands :
    (∃ s : State, s.seq.busy = false ∧ s.host = [.connectSource Source.unknown]) ∧
      (∃ s : State, s.seq.busy = false ∧ s.host = [.connectSink Sink.unknown]) ∧
      (∃ s : State, s.seq.busy = false ∧ s.host = [.routeSinkToSource]) ∧
      (∃ s : State, s.seq.busy = true ∧ s.host = [.connectSink Sink.unknown]) ∧
      ∃ s : State, s.seq.busy = true ∧ s.host = [.routeSinkToSource] :=
  ⟨⟨{ ready [] with host := [.connectSource Source.unknown] }, by decide⟩,
    ⟨{ ready [] with host := [.connectSink Sink.unknown] }, by decide⟩,
    ⟨{ ready [] with host := [.routeSinkToSource] }, by decide⟩,
    ⟨{ encodingAt .encu .w8 1 0 with host := [.connectSink Sink.unknown] }, by decide⟩,
    ⟨{ encodingAt .encu .w8 1 0 with host := [.routeSinkToSource] }, by decide⟩⟩

theorem test_witness_RoutedSinkIsReadBack :
    ∃ s : State, s.seq.busy = false ∧ s.host = [.routeSinkToSource] :=
  ⟨{ ready [] with host := [.routeSinkToSource] }, by decide⟩

/-- For EncuAcceptance, EncsAcceptance, DecuAcceptance and DecsAcceptance: each of IDLE, DONE and ERROR. -/
theorem test_witness_Acceptance :
    [Seq.idle, .done, .error].all (fun q =>
      !({ ready [] with seq := q } : State).seq.busy && ({ ready [] with seq := q } : State).ownsStreams) = true := by
  decide

theorem test_witness_SharedStreamsAreRefused :
    ∃ s : State, s.seq.busy = false ∧ (s.src.shared = true ∨ s.snk.shared = true) :=
  ⟨{ ready [] with snk := { Sink.unknown with shared := true } }, by decide⟩

theorem test_witness_OperandBitsAboveWidthAreIgnored :
    Op.encu.isEncoder = true ∧ (∀ i, i < Width.w8.bits → (0x1FF : Operand).getLsbD i = (0xFF : Operand).getLsbD i) := by
  decide

theorem test_witness_SourceTransaction :
    ∃ (s t u v : State) (info : IoInfo), srcNext s = some (.byte 5, t) ∧ srcNext t = some (.fail info, u) ∧
      srcNext u = some (.endOfInput, v) :=
  ⟨ready [.byte 5, .fail ⟨2⟩], _, _, _, ⟨2⟩, rfl, rfl, rfl⟩

theorem test_witness_SinkTransaction :
    ∃ (s t u : State) (info : IoInfo), snkPut 5 s = some (.fail info, t) ∧ snkPut 6 t = some (.ok, u) :=
  ⟨{ ready [] with snk := { bytes := [], listed := [.fail ⟨2⟩], rest := .always .ok, shared := false } }, _, _, ⟨2⟩,
    rfl, rfl⟩

theorem test_witness_SilentPortsStopTheCore :
    (∃ s : State, s.isRunning .encs .w8 = true ∧ Op.encs.isEncoder = true ∧ s.snk.listed = [] ∧
      s.snk.rest = .silent) ∧
    ∃ s : State, s.isRunning .decu .w8 = true ∧ Op.decu.isEncoder = false ∧ s.src.listed = [] ∧
      s.src.rest = .silent :=
  ⟨⟨{ encodingAt .encs .w8 1 0 with snk := { Sink.unknown with rest := .silent } }, by decide⟩,
    ⟨{ readingAt .decu .w8 0 0 [] with src := { Source.unknown with rest := .silent } }, by decide⟩⟩

/-- For EncuGroupStep, accepted; its failed put is test_witness_SinkFailureEndsTheEncode. -/
theorem test_witness_EncuGroupStep :
    ∃ s t : State, s.seq = .encoding ∧ s.opr = .encu ∧ s.wr = .w16 ∧
      snkPut (BitVec.ofNat 8 (s.rem.toNat % 128 + if s.rem.toNat < 128 then 0 else 128))
        { s with rem := BitVec.ofNat 128 (s.rem.toNat / 128) } = some (.ok, t) :=
  ⟨encodingAt .encu .w16 300 0, _, rfl, rfl, rfl, rfl⟩

/-- For EncsGroupStep, accepted, at the least value of one group. -/
theorem test_witness_EncsGroupStep :
    ∃ s t : State, s.seq = .encoding ∧ s.opr = .encs ∧ s.wr = .w8 ∧
      snkPut (BitVec.ofNat 8 (s.rem.toNat % 128 + if -64 ≤ s.rem.toInt ∧ s.rem.toInt < 64 then 0 else 128))
        { s with rem := BitVec.ofInt 128 (s.rem.toInt / 128) } = some (.ok, t) :=
  ⟨encodingAt .encs .w8 (-64) 0, _, rfl, rfl, rfl, rfl⟩

theorem test_witness_SinkFailureEndsTheEncode :
    (∃ (s u : State) (info : IoInfo), s.seq = .encoding ∧ s.wr = .w16 ∧ s.opr = .encu ∧
      snkPut (encuByte s.rem) { s with rem := shiftUnsigned s.rem } = some (.fail info, u)) ∧
    ∃ (s u : State) (info : IoInfo), s.seq = .encoding ∧ s.wr = .w16 ∧ s.opr = .encs ∧
      snkPut (encsByte s.rem) { s with rem := shiftSigned s.rem } = some (.fail info, u) :=
  ⟨⟨{ encodingAt .encu .w16 2 1 with snk := { Sink.unknown with listed := [.fail ⟨1⟩] } }, _, ⟨1⟩, rfl, rfl, rfl, rfl⟩,
    ⟨{ encodingAt .encs .w16 2 1 with snk := { Sink.unknown with listed := [.fail ⟨1⟩] } }, _, ⟨1⟩, rfl, rfl, rfl, rfl⟩⟩

theorem test_witness_AccumulatorPlacesThePayload : 19 < 20 ∧ ((2 : Acc) ^ 133 - 1).toNat < 2 ^ (7 * 19) := by decide +kernel

theorem test_witness_DecuReadStep :
    ∃ (s t : State) (b : Byte), s.seq = .reading ∧ s.opr = .decu ∧ s.wr = .w8 ∧ srcNext s = some (.byte b, t) :=
  ⟨readingAt .decu .w8 0x7F 1 [.byte 0x01], _, 0x01, rfl, rfl, rfl, rfl⟩

theorem test_witness_DecsReadStep :
    ∃ (s t : State) (b : Byte), s.seq = .reading ∧ s.opr = .decs ∧ s.wr = .w8 ∧ s.gidx.toNat < 20 ∧
      srcNext s = some (.byte b, t) :=
  ⟨readingAt .decs .w8 0 1 [.byte 0x7F], _, 0x7F, rfl, rfl, rfl, by decide, rfl⟩

theorem test_witness_EndOfInputIsTruncated :
    ∃ s t : State, Op.decs.isEncoder = false ∧ s.isRunning .decs .w8 = true ∧ srcNext s = some (.endOfInput, t) :=
  ⟨readingAt .decs .w8 0 0 [], _, rfl, by decide, rfl⟩

theorem test_witness_SourceFailureEndsTheDecode :
    ∃ (s t : State) (info : IoInfo), Op.decu.isEncoder = false ∧ s.isRunning .decu .w32 = true ∧
      srcNext s = some (.fail info, t) :=
  ⟨readingAt .decu .w32 0 1 [.fail ⟨4⟩], _, ⟨4⟩, rfl, by decide, rfl⟩

theorem test_witness_SignedGroupBound : 128 ≤ (0x80 : Byte).toNat := by decide

theorem test_witness_LastGroupTables :
    (0x7F : Acc).toNat < 2 ^ (7 * 1) ∧ 1 + 1 = Width.w8.groups ∧ 1 + 1 < Width.w16.groups ∧ (0x7F : Byte).toNat < 128 := by
  decide

theorem test_witness_SignedDetectorForms : 1 ≤ 20 ∧ 20 ≤ 20 := by decide

/-- For StateTransitionTable, EncoderFrame and DecoderFrame: a next state by acceptance, by a group step, and held. -/
theorem test_witness_frames :
    (∃ t, exec (.of .encu .w8 1) (ready []) = .next t) ∧ (∃ t, exec (.of .decs .w8 1) (ready []) = .next t) ∧
      (∃ t, exec (.of .encs .w8 1) (encodingAt .encs .w8 5 0) = .next t ∧ t.seq = .done) ∧
      (∃ t, exec (.of .decu .w8 1) (readingAt .decu .w8 0 0 [.byte 0x80]) = .next t ∧ t.seq = .reading) ∧
      ∃ t, exec (.of .decu .w8 1) (encodingAt .encs .w8 5 0) = .next t :=
  ⟨⟨_, rfl⟩, ⟨_, rfl⟩, ⟨_, rfl, rfl⟩, ⟨_, rfl, rfl⟩, ⟨_, rfl⟩⟩

/-- For ErrorEntryWritesOnlyTheError and ErrorsByCommand. -/
theorem test_witness_errors :
    (∃ s t : State, exec (.encuW8 0) s = .next t ∧ t.seq = .error) ∧
      (∃ s t : State, exec (.decsW8 0) s = .next t ∧ t.seq = .error ∧ t.status = .ioFailure) ∧
      ∃ s t : State, exec (.decuW8 0) s = .next t ∧ t.seq = .error ∧ t.status ≠ .ioFailure :=
  ⟨⟨{ encodingAt .encu .w8 2 0 with snk := { Sink.unknown with listed := [.fail ⟨1⟩] } }, _, rfl, rfl⟩,
    ⟨readingAt .decs .w8 0 0 [.fail ⟨1⟩], _, rfl, rfl, rfl⟩, ⟨readingAt .decu .w8 0 0 [], _, rfl, rfl, by decide⟩⟩

/-- For ResultRegistersAreWrittenAtTheEnd and SinkKeepsItsBytes: a step in which COUNT, RESULT and STATUS change, and
one in which ERRPORT and ERRINFO do. -/
theorem test_witness_steps :
    (∃ s t : State, step s = .next t ∧ s.host = [] ∧ t.count ≠ s.count ∧ t.result ≠ s.result ∧
      t.status ≠ s.status) ∧
    ∃ s t : State, step s = .next t ∧ s.host = [] ∧ t.errport ≠ s.errport ∧ t.errinfo ≠ s.errinfo :=
  ⟨⟨{ readingAt .decu .w8 0 0 [.byte 0x05] with status := .overflow }, _, rfl, rfl, by decide, by decide, by decide⟩,
    ⟨{ encodingAt .encu .w8 2 0 with snk := { Sink.unknown with listed := [.fail ⟨1⟩] } }, _, rfl, rfl, by decide,
      by decide⟩⟩

/-- For EveryStepKeepsTheInvariant: a state of each kind the invariant speaks of, at the bounds of W = 8. -/
theorem test_witness_EveryStepKeepsTheInvariant :
    (∃ t, (encodingAt .encu .w8 1 1).Inv ∧ step (encodingAt .encu .w8 1 1) = .next t) ∧
      (∃ t, (encodingAt .encs .w8 (-1) 1).Inv ∧ step (encodingAt .encs .w8 (-1) 1) = .next t) ∧
      (∃ t, (readingAt .decs .w8 0x7F 1 [.byte 0x7F]).Inv ∧ step (readingAt .decs .w8 0x7F 1 [.byte 0x7F]) = .next t) ∧
      ({ ready [] with seq := .done, opr := .decu, count := 1, result := 255 } : State).Inv ∧
      ({ ready [] with seq := .error, opr := .encs, status := .ioFailure, errport := .snk } : State).Inv := by
  refine ⟨⟨_, ⟨by decide, show (1 : Operand).toNat < 2 ^ 1 by decide⟩, rfl⟩,
    ⟨_, ⟨by decide, show -(2 ^ 0 : Int) ≤ (-1 : Operand).toInt ∧ (-1 : Operand).toInt < 2 ^ 0 by decide⟩, rfl⟩,
    ⟨_, ⟨by decide, show 1 < 2 by decide⟩, rfl⟩, ?_, ?_⟩
  · exact ⟨rfl, by decide, by decide, by decide, by decide⟩
  · exact ⟨by decide, rfl⟩

/-- For GroupIndexStaysInItsBound: the group index at 18 while a command runs, and past the last of 19 groups. -/
theorem test_witness_GroupIndexStaysInItsBound :
    ((encodingAt .encu .w128 3 18).Inv ∧
      (nextOf (step (encodingAt .encu .w128 3 18))).map (fun t => (t.seq, t.gidx, t.count)) = some (.done, 19, 19)) ∧
    (readingAt .decu .w128 0 17 [.byte 0x80]).Inv ∧
      (nextOf (step (readingAt .decu .w128 0 17 [.byte 0x80]))).map (fun t => (t.seq, t.gidx)) =
        some (.reading, 18) :=
  ⟨⟨⟨by decide, by change (encodingAt .encu .w128 3 18).rem.toNat < _; decide +kernel⟩, by decide +kernel⟩,
    ⟨by decide +kernel, by change (readingAt .decu .w128 0 17 [.byte 0x80]).gidx.toNat < _; decide +kernel⟩, by decide +kernel⟩

/-- After an encode of 19 groups. -/
def afterNineteenGroups (host : List HostAction) : State :=
  { ready [] with seq := .done, wr := .w128, gidx := 19, count := 19, host := host }

/-- For GroupIndexBetweenCommandsIsNotObservable: a state of it, and a next state, a fault and a refusal. -/
theorem test_witness_GroupIndexBetweenCommandsIsNotObservable :
    (afterNineteenGroups []).seq.busy = false ∧
      ({ afterNineteenGroups [] with gidx := 18 } : State) ≠ afterNineteenGroups [] ∧
      (nextOf (step (afterNineteenGroups [.issue 0x12 0]))).map (·.gidx) = some 0 ∧
      step (afterNineteenGroups [.read .result]) = .fault (.unreadable .result) ∧
      step (afterNineteenGroups [.issue 0x14 0]) = .refused (.reservedWord 0x14 .widthCode) :=
  ⟨by decide, by decide, by decide, rfl, rfl⟩

/-- For EncuEmitsTheCanonicalSequence and EncsEmitsTheCanonicalSequence. -/
theorem test_witness_EncodersEmit :
    (ready []).seq.busy = false ∧ (ready []).ownsStreams = true ∧ (ready []).sinkAccepts :=
  ⟨by decide, by decide, rfl, rfl⟩

/-- For DecuDecodesWhatFits (300 at W = 16, and 0 in two groups) and DecsDecodesWhatFits (-2 and -128). -/
theorem test_witness_DecodersDecode :
    groupsWf [0xAC, 0x02] ∧ [(0xAC : Byte), 0x02].length ≤ Width.w16.groups ∧
      groupsValue [0xAC, 0x02] < 2 ^ Width.w16.bits ∧ groupsWf [0x80, 0x00] ∧
      groupsWf [0x80, 0x7F] ∧ -(2 ^ (Width.w8.bits - 1) : Int) ≤ groupsSigned [0x80, 0x7F] ∧
      groupsSigned [0x80, 0x7F] < 2 ^ (Width.w8.bits - 1) ∧
      [(0x80 : Byte), 0x7F].length ≤ Width.w8.signedGroups Config.params ∧
      (ready [.byte 0xAC, .byte 0x02]).src.listed = [0xAC, 0x02].map .byte ++ [] := by
  refine ⟨⟨by decide, show 2 < 128 by decide⟩, by decide, by decide, ⟨by decide, show 0 < 128 by decide⟩,
    ⟨by decide, show 127 < 128 by decide⟩, by decide, by decide, by decide, rfl⟩

/-- For DecuOverflowsAtTheBound (S5, and 256) and DecsOverflowsAtTheBound (128, and a continuation at the bound). -/
theorem test_witness_DecodersOverflow :
    [(0xFF : Byte), 0xFF].length = Width.w8.groups ∧ allContinue [(0xFF : Byte), 0xFF].dropLast ∧
      allContinue [(0xFF : Byte), 0xFF] ∧ 2 ^ Width.w8.bits ≤ groupsValue [0xFF, 0x02] ∧
      [(0x80 : Byte), 0x01].length = Width.w8.signedGroups Config.params ∧
      (2 ^ (Width.w8.bits - 1) : Int) ≤ groupsSigned [0x80, 0x01] ∧
      groupsSigned [0x80, 0x7E] < -(2 ^ (Width.w8.bits - 1) : Int) ∧
      (ready [.byte 0xFF, .byte 0xFF, .byte 0x7F]).src.listed = [0xFF, 0xFF].map .byte ++ [.byte 0x7F] := by
  refine ⟨by decide, ?_, ?_, by decide, by decide, by decide, by decide, rfl⟩ <;> simp [allContinue]

/-- For DecodeOfACutSequenceIsTruncated: S6, and the empty source. -/
theorem test_witness_DecodeOfACutSequenceIsTruncated :
    (ready [.byte 0x80, .endOfInput]).src.listed = [0x80].map .byte ++ .endOfInput :: [] ∧
      [(0x80 : Byte)].length < Width.w8.groups ∧ allContinue [(0x80 : Byte)] ∧ allContinue [] := by
  refine ⟨rfl, by decide, ?_, ?_⟩ <;> simp [allContinue]

/-- For UnsignedRoundTrip and SignedRoundTrip: the greatest and the least value of W = 8, and a source of the bytes
with End after them each time, with no End, and with one End. -/
theorem test_witness_RoundTrips :
    (ready []).snk.bytes = [] ∧ (255 : Operand).toNat < 2 ^ Width.w8.bits ∧
      -(2 ^ (Width.w8.bits - 1) : Int) ≤ (-128 : Operand).toInt ∧ (127 : Operand).toInt < 2 ^ (Width.w8.bits - 1) ∧
      (ready [.byte 0xFF, .byte 0x01]).srcContents [0xFF, 0x01] ∧
      ({ ready [] with src := { Source.unknown with listed := [.byte 0x80, .byte 0x7F], rest := .silent } } :
        State).srcContents [0x80, 0x7F] ∧
      ({ ready [] with src := { Source.unknown with listed := [.byte 0x00, .endOfInput], rest := .silent } } :
        State).srcContents [0x00] :=
  ⟨rfl, by decide, by decide, by decide, ⟨[], by simp, rfl, .inr rfl⟩, ⟨[], by simp, rfl, .inl rfl⟩,
    ⟨[.endOfInput], by simp, rfl, .inl rfl⟩⟩

/-- For EveryCommandEnds. -/
theorem test_witness_EveryCommandEnds :
    (readingAt .decu .w8 0x7F 1 []).Inv ∧ (readingAt .decu .w8 0x7F 1 []).seq.busy = true ∧
      (readingAt .decu .w8 0x7F 1 []).host = [] ∧ (readingAt .decu .w8 0x7F 1 []).portsAnswer :=
  ⟨⟨by decide, show 1 < 2 by decide⟩, rfl, rfl, by decide, by decide⟩

end Sys2Proof.Tests
end

section
/-! PROOFS. The decoder of a block with any widths, said once: the three fields of a command word as numbers, what each
field's code names, and which words decode to which instruction (30_encoding.md R74 to R79, 00_scope.md R6). -/

namespace Sys2Proof

/-! ### The fields of a command word -/

theorem opField_toNat (cmd : Command) : (opField cmd).toNat = cmd.toNat % 4 := by
  simp [opField, BitVec.extractLsb'_toNat]

theorem widthField_toNat (cmd : Command) : (widthField cmd).toNat = cmd.toNat / 4 % 8 := by
  simp [widthField, BitVec.extractLsb'_toNat, Nat.shiftRight_eq_div_pow]

theorem rsvField_toNat (cmd : Command) : (rsvField cmd).toNat = cmd.toNat / 32 := by
  have h := cmd.isLt
  rw [rsvField, BitVec.extractLsb'_toNat, Nat.shiftRight_eq_div_pow]
  omega

theorem rsvField_eq_zero_iff (cmd : Command) : rsvField cmd = 0 ↔ cmd.toNat / 32 = 0 := by
  rw [← BitVec.toNat_inj, rsvField_toNat]
  rfl

/-- A command word is its three fields. -/
theorem command_ext {a b : Command} (hr : rsvField a = rsvField b) (hw : widthField a = widthField b)
    (ho : opField a = opField b) : a = b := by
  rw [← BitVec.toNat_inj] at hr hw ho ⊢
  rw [rsvField_toNat, rsvField_toNat] at hr
  rw [widthField_toNat, widthField_toNat] at hw
  rw [opField_toNat, opField_toNat] at ho
  omega

@[simp] theorem rsvField_commandWord (o : Op) (w : Width) : rsvField (commandWord o w) = 0 :=
  (Laws.CommandWord.fields_of_commandWord o w).1

@[simp] theorem widthField_commandWord (o : Op) (w : Width) : widthField (commandWord o w) = w.code :=
  (Laws.CommandWord.fields_of_commandWord o w).2.1

@[simp] theorem opField_commandWord (o : Op) (w : Width) : opField (commandWord o w) = o.code :=
  (Laws.CommandWord.fields_of_commandWord o w).2.2.1

/-! ### The codes -/

@[simp] theorem Op.ofCode_code (o : Op) : Op.ofCode o.code = o := by cases o <;> rfl

@[simp] theorem Op.code_ofCode (c : BitVec 2) : (Op.ofCode c).code = c := by
  revert c; decide

@[simp] theorem Width.ofCode_code (w : Width) : Width.ofCode w.code = some w := by cases w <;> rfl

theorem Width.ofCode_eq_some {c : BitVec 3} {w : Width} (h : Width.ofCode c = some w) : c = w.code := by
  revert c w; decide

/-- The codes 5, 6 and 7 name no width. -/
theorem Width.ofCode_eq_none_iff (c : BitVec 3) : Width.ofCode c = none ↔ 5 ≤ c.toNat := by
  revert c; decide

/-! ### The decoder -/

@[simp] theorem encode_of (o : Op) (w : Width) (x : Operand) : encode (.of o w x) = (commandWord o w, x) := by
  simp [encode]

theorem decodeIn_of_rsv {p : Params} {cmd : Command} {x : Operand} (h : rsvField cmd ≠ 0) :
    decodeIn p cmd x = .error .rsvBits := by
  rw [decodeIn, if_pos h]

theorem decodeIn_of_noWidth {p : Params} {cmd : Command} {x : Operand} (hr : rsvField cmd = 0)
    (hw : Width.ofCode (widthField cmd) = none) : decodeIn p cmd x = .error .widthCode := by
  simp [decodeIn, hr, hw]

theorem decodeIn_commandWord_built {p : Params} {w : Width} (h : w ∈ p.widths) (o : Op) (x : Operand) :
    decodeIn p (commandWord o w) x = .ok (.of o w x) := by
  simp [decodeIn, h]

theorem decodeIn_commandWord_notBuilt {p : Params} {w : Width} (h : w ∉ p.widths) (o : Op) (x : Operand) :
    decodeIn p (commandWord o w) x = .error .widthNotBuilt := by
  simp [decodeIn, h]

/-- A command word has a reserved bit set, or has a width code that names no width, or is the word of an operation at a
width. -/
theorem commandWord_cases (cmd : Command) :
    rsvField cmd ≠ 0 ∨ (rsvField cmd = 0 ∧ Width.ofCode (widthField cmd) = none) ∨
      ∃ o w, cmd = commandWord o w := by
  by_cases hr : rsvField cmd = 0
  · cases hw : Width.ofCode (widthField cmd) with
    | none => exact .inr (.inl ⟨hr, rfl⟩)
    | some w =>
      exact .inr (.inr ⟨Op.ofCode (opField cmd), w,
        command_ext (by simp [hr]) (by simpa using Width.ofCode_eq_some hw) (by simp)⟩)
  · exact .inl hr

/-- R79's reserved words, by the fields. -/
theorem reserved_iff_fields (cmd : Command) :
    (5 ≤ cmd.toNat / 4 % 8 ∨ cmd.toNat / 32 ≠ 0) ↔
      (Width.ofCode (widthField cmd) = none ∨ rsvField cmd ≠ 0) := by
  rw [Width.ofCode_eq_none_iff, widthField_toNat, ne_eq, ne_eq, rsvField_eq_zero_iff]

/-- Whatever its widths, a block decodes no reserved word. -/
theorem decodeIn_reserved (p : Params) {cmd : Command} (x : Operand)
    (h : 5 ≤ cmd.toNat / 4 % 8 ∨ cmd.toNat / 32 ≠ 0) : ∃ why, decodeIn p cmd x = .error why := by
  by_cases hr : rsvField cmd = 0
  · exact ⟨_, decodeIn_of_noWidth hr (((reserved_iff_fields cmd).1 h).resolve_right (not_not_intro hr))⟩
  · exact ⟨_, decodeIn_of_rsv hr⟩

/-- A block decodes a word and an operand to an instruction exactly when the instruction is of one of its widths and
they are its encoding. -/
theorem decodeIn_eq_ok_iff (p : Params) (cmd : Command) (x : Operand) (i : Instr) :
    decodeIn p cmd x = .ok i ↔ i.width ∈ p.widths ∧ encode i = (cmd, x) := by
  constructor
  · intro h
    rcases commandWord_cases cmd with hr | ⟨hr, hw⟩ | ⟨o, w, rfl⟩
    · rw [decodeIn_of_rsv hr] at h; cases h
    · rw [decodeIn_of_noWidth hr hw] at h; cases h
    · by_cases hm : w ∈ p.widths
      · rw [decodeIn_commandWord_built hm] at h
        cases h
        simp [hm]
      · rw [decodeIn_commandWord_notBuilt hm] at h; cases h
  · rintro ⟨hm, he⟩
    obtain ⟨rfl, rfl⟩ := Prod.mk.inj he
    rw [decodeIn_commandWord_built hm, Machine.Instr.of_fields]

/-- Settles O4: the words of the built widths decode, those of the others are refused by name, and what is decoded is
given exactly by `decodeIn_eq_ok_iff`. -/
theorem widthsAreAParameter : Obligations.WidthsAreAParameter := by
  unfold Obligations.WidthsAreAParameter
  refine ⟨rfl, fun p x => ⟨fun o w => ⟨?built, ?notBuilt⟩, ?reserved, ?decoded⟩⟩
  case built => exact fun h => decodeIn_commandWord_built h o x
  case notBuilt => exact fun h => decodeIn_commandWord_notBuilt h o x
  case reserved => exact fun _ h => decodeIn_reserved p x h
  case decoded => exact fun cmd i h => (decodeIn_eq_ok_iff p cmd x i).1 h

/-- Settles O5: the five rows of R7's table, each a closed fact. -/
theorem groupBounds : Obligations.GroupBounds := by
  unfold Obligations.GroupBounds
  decide

end Sys2Proof
end

section
/-! PROOFS. The signed group bound under either value of SLEB_EXTRA_GROUP (00_scope.md R8, 42_sleb128.md R172). -/

namespace Sys2Proof.Machine

/-- The block of this spec reads no extra group. -/
@[simp] theorem Width.signedGroups_params (w : Width) : w.signedGroups Config.params = w.groups := rfl

theorem atBound_iff (k bound : Nat) : atBound k bound = true ↔ k + 1 = bound := by
  simp [atBound]

/-- DECS on a byte with its continuation bit set: Overflow at the bound, the next group before it. -/
theorem decsByte_of_contBit {p : Params} {w : Width} {b : Byte} (h : contBit b = true) (s : State) :
    decsByte p w b s =
      .next (if atBound s.gidx.toNat (w.signedGroups p) then s.raiseOverflow else { s with gidx := s.gidx + 1 }) := by
  rw [decsByte, if_pos h]
  split <;> rfl

/-- Settles O34: for a continuation byte DECS tests the group bound alone, and that bound is N(W) plus the parameter. -/
theorem signedGroupBound : Obligations.SignedGroupBound := by
  unfold Obligations.SignedGroupBound
  refine ⟨fun w => ⟨Width.signedGroups_params w, w.groups_spec.2.1⟩, fun p w b s hb => ?_⟩
  rw [decsByte_of_contBit ((contBit_iff b).2 hb)]
  simp only [atBound_iff, Width.signedGroups, State.raiseOverflow]

end Sys2Proof.Machine
end

section
/-! PROOFS. The acceptance of a command (10_state.md R31): what `start` writes, for each operation, in the spec's
numbers. -/

namespace Sys2Proof.Machine

/-- With no command running, `exec` is the acceptance. -/
theorem exec_idle {s : State} (hb : s.seq.busy = false) (i : Instr) :
    exec i s = accept i.op i.width i.operand s := by
  rw [exec_eq_command, command_accept hb]

/-- With no command running and the streams its own, the core accepts any command. -/
theorem exec_accepts {o : Op} {w : Width} {x : Operand} {s : State} (hb : s.seq.busy = false)
    (ho : s.ownsStreams = true) : exec (.of o w x) s = .next (s.start o w x) := by
  rw [exec_idle hb, Instr.op_of, Instr.width_of, Instr.operand_of, accept_owned ho]

theorem zextOperand_eq (w : Width) (x : Operand) : zextOperand w x = BitVec.ofNat 128 (x.toNat % 2 ^ w.bits) := by
  rw [← zextOperand_toNat, BitVec.ofNat_toNat, BitVec.setWidth_eq]

theorem sextOperand_eq (w : Width) (x : Operand) :
    sextOperand w x = BitVec.ofInt 128 (Int.bmod (x.toNat : Int) (2 ^ w.bits)) := by
  rw [← sextOperand_toInt, BitVec.ofInt_toInt]

/-- Settles O17: REM is the operand modulo 2^W. -/
theorem encuAcceptance : Obligations.EncuAcceptance := by
  intro w x s hb ho
  rw [exec_accepts hb ho, State.start, zextOperand_eq]

/-- Settles O18: REM is the operand's balanced residue modulo 2^W, as two's complement. -/
theorem encsAcceptance : Obligations.EncsAcceptance := by
  intro w x s hb ho
  rw [exec_accepts hb ho, State.start, sextOperand_eq]

/-- Settles O19: a decoder's acceptance is `start`, which clears ACC and reads no operand. -/
theorem decuAcceptance : Obligations.DecuAcceptance :=
  fun _ _ _ hb ho => exec_accepts hb ho

/-- Settles O20, as O19. -/
theorem decsAcceptance : Obligations.DecsAcceptance :=
  fun _ _ _ hb ho => exec_accepts hb ho

end Sys2Proof.Machine
end

section
/-! PROOFS. The write of one payload into the accumulator (10_state.md R26, 41_uleb128_decoder.md R131). -/

namespace Sys2Proof

/-- A payload moved to group k fills the bits 7k to 7k+6 and no others. -/
theorem shiftedPayload_getLsbD (p : Payload) (k : Nat) {i : Nat} (hi : i < 140) :
    (p.setWidth 140 <<< (7 * k)).getLsbD i =
      if 7 * k ≤ i ∧ i < 7 * k + 7 then p.getLsbD (i - 7 * k) else false := by
  have hsub : i - 7 * k < 140 := by omega
  simp only [BitVec.getLsbD_shiftLeft, BitVec.getLsbD_setWidth, hi, hsub, decide_true, Bool.true_and]
  split
  · next hin => simp [hin.1]
  · next hout =>
    by_cases hlow : i < 7 * k
    · simp [hlow]
    · rw [BitVec.getLsbD_of_ge p (i - 7 * k) (by omega), Bool.and_false]

/-- The seven bits at 7k are the payload's, all others are as before. -/
theorem accWrite_getLsbD (acc : Acc) (k : Nat) (p : Payload) {i : Nat} (hi : i < 140) :
    (accWrite acc k p).getLsbD i =
      if 7 * k ≤ i ∧ i < 7 * k + 7 then p.getLsbD (i - 7 * k) else acc.getLsbD i := by
  simp only [accWrite, BitVec.getLsbD_or, BitVec.getLsbD_and, BitVec.getLsbD_not, shiftedPayload_getLsbD _ k hi,
    hi, decide_true, Bool.true_and]
  split
  · next hin =>
    rw [BitVec.getLsbD_allOnes, decide_eq_true (show i - 7 * k < 7 by omega), Bool.not_true, Bool.and_false,
      Bool.false_or]
  · rw [Bool.not_false, Bool.and_true, Bool.or_false]

/-- Above an accumulator that is zero from bit 7k on, the write only adds bits. -/
theorem accWrite_eq_or {acc : Acc} {k : Nat} (h : acc.toNat < 2 ^ (7 * k)) (p : Payload) :
    accWrite acc k p = p.setWidth 140 <<< (7 * k) ||| acc := by
  refine BitVec.eq_of_getLsbD_eq fun i hi => ?_
  rw [accWrite_getLsbD acc k p hi, BitVec.getLsbD_or, shiftedPayload_getLsbD p k hi]
  split
  · next hin =>
    have hzero : acc.getLsbD i = false :=
      Nat.testBit_lt_two_pow (h.trans_le (Nat.pow_le_pow_right (by decide) hin.1))
    rw [hzero, Bool.or_false]
  · rw [Bool.false_or]

/-- There the payload is added at bit offset 7k. -/
theorem accWrite_toNat {acc : Acc} {k : Nat} (hk : k < 20) (h : acc.toNat < 2 ^ (7 * k)) (p : Payload) :
    (accWrite acc k p).toNat = acc.toNat + p.toNat * 2 ^ (7 * k) := by
  have hp : p.toNat < 2 ^ 140 := p.isLt.trans (by decide)
  have hfit : p.toNat * 2 ^ (7 * k) < 2 ^ 140 :=
    calc p.toNat * 2 ^ (7 * k) < 2 ^ 7 * 2 ^ (7 * k) := Nat.mul_lt_mul_of_pos_right p.isLt (Nat.two_pow_pos _)
      _ = 2 ^ (7 + 7 * k) := (Nat.pow_add ..).symm
      _ ≤ 2 ^ 140 := Nat.pow_le_pow_right (by decide) (by omega)
  rw [accWrite_eq_or h, BitVec.toNat_or, BitVec.toNat_shiftLeft, BitVec.toNat_setWidth, Nat.mod_eq_of_lt hp,
    Nat.mod_eq_of_lt (by rwa [Nat.shiftLeft_eq]), ← Nat.shiftLeft_add_eq_or_of_lt h, Nat.shiftLeft_eq, Nat.add_comm]

/-- After the write ACC is still zero at group k+1 and above. -/
theorem accWrite_lt {acc : Acc} {k : Nat} (hk : k < 20) (h : acc.toNat < 2 ^ (7 * k)) (p : Payload) :
    (accWrite acc k p).toNat < 2 ^ (7 * (k + 1)) := by
  have hp : p.toNat + 1 ≤ 2 ^ 7 := p.isLt
  calc (accWrite acc k p).toNat = acc.toNat + p.toNat * 2 ^ (7 * k) := accWrite_toNat hk h p
    _ < (p.toNat + 1) * 2 ^ (7 * k) := by rw [Nat.add_mul, Nat.one_mul]; omega
    _ ≤ 2 ^ 7 * 2 ^ (7 * k) := Nat.mul_le_mul_right _ hp
    _ = 2 ^ (7 * (k + 1)) := by rw [← Nat.pow_add]; congr 1; omega

/-- Settles O29: bit by bit, and as a sum where the write is above all that was read. -/
theorem accumulatorPlacesThePayload : Obligations.AccumulatorPlacesThePayload :=
  fun acc k p hk => ⟨fun _ hi => accWrite_getLsbD acc k p hi, fun h => accWrite_toNat hk h p⟩

end Sys2Proof
end

section
/-! PROOFS. What one group step can do, as the state after it, and from that what a command's step changes and what it
leaves (10_state.md R21, R23 to R29). -/

namespace Sys2Proof.Machine

/-! ### The group steps -/

/-- One put touches the sink and the count of free values alone; the sink gains the byte if it was accepted, and at
most one byte if it was not. -/
theorem snkPut_frame {s t : State} {a : SnkAnswer} {b : Byte} (h : snkPut b s = some (a, t)) :
    ∃ (snk : Sink) (d : Nat), t = { s with snk := snk, draws := d } ∧
      (a = .ok → snk.bytes = s.snk.bytes ++ [b]) ∧
      ∃ kept : List Byte, kept.length ≤ 1 ∧ snk.bytes = s.snk.bytes ++ kept := by
  obtain ⟨d, rfl⟩ := snkPut_some h
  cases a with
  | ok => exact ⟨_, _, rfl, fun _ => sinkAnswered_ok_bytes b _, sinkAnswered_bytes .ok b _⟩
  | fail info => exact ⟨_, _, rfl, nofun, sinkAnswered_bytes (.fail info) b _⟩

/-- What an encoder's group step can do: the failure of the put, the end, or the next group. -/
theorem emitGroup_outcome {r : Operand} {last : Bool} {b : Byte} {s t : State} (h : emitGroup r last b s = .next t) :
    ∃ (snk : Sink) (d : Nat) (u : State), u = { s with rem := r, snk := snk, draws := d } ∧
      ((∃ info kept, kept.length ≤ 1 ∧ snk.bytes = s.snk.bytes ++ kept ∧ t = u.raiseIoFailure .snk info) ∨
        (last = true ∧ snk.bytes = s.snk.bytes ++ [b] ∧
          t = ({ u with gidx := s.gidx + 1 } : State).finishEncode (s.gidx + 1)) ∨
        (last = false ∧ snk.bytes = s.snk.bytes ++ [b] ∧ t = { u with gidx := s.gidx + 1 })) := by
  rcases emitGroup_next h with ⟨info, u, hput, rfl⟩ | ⟨u, hput, rfl⟩
  · obtain ⟨snk, d, rfl, -, kept, hlen, hbytes⟩ := snkPut_frame hput
    exact ⟨snk, d, _, rfl, .inl ⟨info, kept, hlen, hbytes, rfl⟩⟩
  · obtain ⟨snk, d, rfl, hok, -⟩ := snkPut_frame hput
    refine ⟨snk, d, _, rfl, .inr ?_⟩
    cases last
    · exact .inr ⟨rfl, hok rfl, rfl⟩
    · exact .inl ⟨rfl, hok rfl, rfl⟩

/-- An encoder's group step is `emitGroup` of the group's byte. -/
theorem groupStepOf_encoder {o : Op} (ho : o.isEncoder = true) (w : Width) (s : State) :
    ∃ r last, groupStepOf o w s = emitGroup r last (if o = .encu then encuByte s.rem else encsByte s.rem) s := by
  cases o with
  | encu => exact ⟨_, _, rfl⟩
  | encs => exact ⟨_, _, rfl⟩
  | decu => cases ho
  | decs => cases ho

/-- The value a decoder ends with, its last group `k` in place. -/
def decodedValue (o : Op) (w : Width) (k : Nat) (acc : Acc) : Operand :=
  if o = .decu then unsignedResult w acc else signedResult w (sextAcc acc (k + 1))

/-- What a decoder's read step does with the byte whose payload has been placed. -/
def byteStepOf (o : Op) (w : Width) : Byte → State → Result :=
  if o = .decu then decuByte w else decsByte Config.params w

theorem groupStepOf_decoder {o : Op} (ho : o.isEncoder = false) (w : Width) (s : State) :
    groupStepOf o w s = readGroup (byteStepOf o w) s := by
  cases o with
  | encu => cases ho
  | encs => cases ho
  | decu => rfl
  | decs => rfl

/-- What either decoder can do with a byte: Overflow, the next group where there is one, or the end. -/
theorem byteStepOf_next {o : Op} {w : Width} {b : Byte} {s t : State} (h : byteStepOf o w b s = .next t) :
    t = s.raiseOverflow ∨
    (s.gidx.toNat + 1 ≠ w.groups ∧ t = { s with gidx := s.gidx + 1 }) ∨
    t = s.finishDecode (decodedValue o w s.gidx.toNat s.acc) (s.gidx + 1) := by
  unfold byteStepOf at h
  unfold decodedValue
  have hbound : ∀ {k n : Nat}, atBound k n = false → k + 1 ≠ n := fun hk => by simpa [atBound] using hk
  split at h
  · next ho =>
    rw [if_pos ho]
    rcases decuByte_next h with ⟨-, ht⟩ | ⟨-, -, hk, ht⟩ | ⟨-, -, ht⟩
    · exact .inl ht
    · exact .inr (.inl ⟨hbound hk, ht⟩)
    · exact .inr (.inr ht)
  · next ho =>
    rw [if_neg ho]
    rcases decsByte_next h with ⟨-, ht⟩ | ⟨-, hk, ht⟩ | ⟨-, -, ht⟩
    · exact .inl ht
    · exact .inr (.inl ⟨hbound hk, ht⟩)
    · exact .inr (.inr ht)

/-- What a decoder's read step can do: it uses up one answer `a` of the source, and then ends with Truncated or
IOFailure, or places a payload and ends with Overflow, goes on, or ends in DONE. -/
theorem groupStepOf_decoder_next {o : Op} {w : Width} {s t : State} (ho : o.isEncoder = false)
    (h : groupStepOf o w s = .next t) :
    ∃ (a : SrcAnswer) (d : Nat) (u : State),
      u = { s with src := Source.answered a { s.src with listed := s.src.listed.tail }, draws := d } ∧
      ((a = .endOfInput ∧ t = u.raiseTruncated) ∨
        (∃ info, a = .fail info ∧ t = u.raiseIoFailure .src info) ∨
        ∃ b v, a = .byte b ∧ v = { u with acc := accWrite s.acc s.gidx.toNat (payload b) } ∧
          (t = v.raiseOverflow ∨
            (s.gidx.toNat + 1 ≠ w.groups ∧ t = { v with gidx := s.gidx + 1 }) ∨
            t = v.finishDecode (decodedValue o w s.gidx.toNat v.acc) (s.gidx + 1))) := by
  rw [groupStepOf_decoder ho] at h
  rcases readGroup_next h with ⟨u, hu, ht⟩ | ⟨info, u, hu, ht⟩ | ⟨b, u, hu, hb⟩ <;>
    obtain ⟨d, rfl⟩ := srcNext_some hu
  · exact ⟨_, d, _, rfl, .inl ⟨rfl, ht⟩⟩
  · exact ⟨_, d, _, rfl, .inr (.inl ⟨info, rfl, ht⟩)⟩
  · exact ⟨_, d, _, rfl, .inr (.inr ⟨b, _, rfl, rfl, byteStepOf_next hb⟩)⟩

/-! ### A command's step -/

/-- What a command's step can do: it is accepted, takes its group step, or is held. -/
theorem exec_of_next {o : Op} {w : Width} {x : Operand} {s t : State} (h : exec (.of o w x) s = .next t) :
    (s.seq.busy = false ∧ t = s.start o w x) ∨
    (s.isRunning o w = true ∧ groupStepOf o w s = .next t) ∨
    (s.seq.busy = true ∧ s.isRunning o w = false ∧ t = s) := by
  rw [exec_of] at h
  rcases command_cases o w x (groupStepOf o w) s with ⟨hb, he⟩ | ⟨hr, he⟩ | ⟨hb, hr, he⟩ <;> rw [he] at h
  · exact .inl ⟨hb, (accept_next h).2⟩
  · exact .inr (.inl ⟨hr, h⟩)
  · injection h with h
    exact .inr (.inr ⟨hb, hr, h.symm⟩)

theorem runningSeq_encoder {o : Op} (ho : o.isEncoder = true) : runningSeq o = .encoding := if_pos ho

theorem runningSeq_decoder {o : Op} (ho : o.isEncoder = false) : runningSeq o = .reading :=
  if_neg (by simp [ho])

theorem State.isRunning_seq {o : Op} {w : Width} {s : State} (h : s.isRunning o w = true) : s.seq = runningSeq o :=
  ((State.isRunning_iff o w s).1 h).1

theorem State.isRunning_of_idle {o : Op} {w : Width} {s : State} (hb : s.seq.busy = false) :
    s.isRunning o w = false := by
  rw [← Bool.not_eq_true]
  intro hr
  rw [State.isRunning_seq hr, runningSeq_busy] at hb
  cases hb

/-- Settles O38: the three things a command's step can do, the group step by what it can answer. -/
theorem stateTransitionTable : Obligations.StateTransitionTable := by
  intro i s t h
  rw [← Instr.of_fields i] at h
  rcases exec_of_next h with ⟨hb, rfl⟩ | ⟨hr, hg⟩ | hheld
  · cases ho : i.op.isEncoder with
    | true => exact .inl ⟨hb, rfl, by rw [State.start_seq, runningSeq_encoder ho]⟩
    | false => exact .inr (.inl ⟨hb, rfl, by rw [State.start_seq, runningSeq_decoder ho]⟩)
  · have hq := State.isRunning_seq hr
    cases ho : i.op.isEncoder with
    | true =>
      rw [runningSeq_encoder ho] at hq
      refine .inr (.inr (.inl ⟨hq, hr, ?_⟩))
      obtain ⟨r, last, he⟩ := groupStepOf_encoder ho i.width s
      obtain ⟨snk, d, u, rfl, ⟨info, kept, -, -, rfl⟩ | ⟨-, -, rfl⟩ | ⟨-, -, rfl⟩⟩ := emitGroup_outcome (he ▸ hg) <;>
        simp [hq]
    | false =>
      rw [runningSeq_decoder ho] at hq
      refine .inr (.inr (.inr (.inl ⟨hq, hr, ?_⟩)))
      obtain ⟨a, d, u, rfl, ⟨-, rfl⟩ | ⟨info, -, rfl⟩ | ⟨b, v, -, rfl, rfl | ⟨-, rfl⟩ | rfl⟩⟩ :=
        groupStepOf_decoder_next ho hg <;> simp [hq]
  · exact .inr (.inr (.inr (.inr hheld)))

/-- An encoder's acceptance leaves ACC alone. -/
theorem State.start_acc_of_encoder {o : Op} (ho : o.isEncoder = true) (w : Width) (x : Operand) (s : State) :
    (s.start o w x).acc = s.acc := by
  cases o with
  | encu => rfl
  | encs => rfl
  | decu => cases ho
  | decs => cases ho

/-- A decoder's acceptance leaves REM alone. -/
theorem State.start_rem_of_decoder {o : Op} (ho : o.isEncoder = false) (w : Width) (x : Operand) (s : State) :
    (s.start o w x).rem = s.rem := by
  cases o with
  | encu => cases ho
  | encs => cases ho
  | decu => rfl
  | decs => rfl

/-- Settles O39: acceptance and a held command write no port, and a group step has the three outcomes of
`emitGroup`. -/
theorem encoderFrame : Obligations.EncoderFrame := by
  intro o w x s t ho h
  rcases exec_of_next h with ⟨hb, rfl⟩ | ⟨hr, hg⟩ | ⟨hb, hr, rfl⟩
  · simp [hb, State.start_acc_of_encoder ho, State.isRunning_of_idle hb, runningSeq_encoder ho]
  · have hq : s.seq = .encoding := (State.isRunning_seq hr).trans (runningSeq_encoder ho)
    obtain ⟨r, last, he⟩ := groupStepOf_encoder ho w s
    obtain ⟨snk, d, u, rfl, ⟨info, kept, hlen, hbytes, rfl⟩ | ⟨-, hbytes, rfl⟩ | ⟨-, hbytes, rfl⟩⟩ :=
      emitGroup_outcome (he ▸ hg)
    · have hkept : ∃ kept : List Byte, kept.length ≤ 1 ∧ snk.bytes = s.snk.bytes ++ kept := ⟨kept, hlen, hbytes⟩
      simpa [hr, Seq.busy] using hkept
    · simp [hr, hbytes, Seq.busy]
    · simp [hr, hbytes, hq]
  · simp [hr]

/-- Settles O40: likewise for the outcomes of a read step, whose one answer is all the source gives. -/
theorem decoderFrame : Obligations.DecoderFrame := by
  intro o w x s t ho h
  rcases exec_of_next h with ⟨hb, rfl⟩ | ⟨hr, hg⟩ | ⟨hb, hr, rfl⟩
  · simp [hb, State.start_rem_of_decoder ho, State.isRunning_of_idle hb, runningSeq_decoder ho]
  · have hq : s.seq = .reading := (State.isRunning_seq hr).trans (runningSeq_decoder ho)
    obtain ⟨a, d, u, rfl, ⟨rfl, rfl⟩ | ⟨info, rfl, rfl⟩ | ⟨b, v, rfl, rfl, rfl | ⟨-, rfl⟩ | rfl⟩⟩ :=
      groupStepOf_decoder_next ho hg <;> simp [hr, hq, Seq.busy]
  · simp [hr]

end Sys2Proof.Machine
end

section
/-! PROOFS. What one step of the machine can do (70_reset_and_hazards.md R234, R242), and what follows for the result
interface (10_state.md R27 to R33). -/

namespace Sys2Proof.Machine

/-- Settles O12: the codes of each register, in order. -/
theorem registerCodes : Obligations.RegisterCodes := by
  unfold Obligations.RegisterCodes
  decide

/-! ### Which part of the machine a step is -/

theorem step_core {s : State} (h : s.host = [] ∨ s.issueHeld = true) : step s = coreStep s :=
  machineStep_core h

/-- The host's next action is taken, but for an `Issue` while a command runs. -/
theorem step_host {s : State} {a : HostAction} {more : List HostAction} (hh : s.host = a :: more)
    (ha : a.isIssue = false ∨ s.seq.busy = false) : step s = hostAct a { s with host := more } := by
  refine machineStep_host hh ?_
  rw [← Bool.not_eq_true, State.issueHeld_iff]
  rintro ⟨hb, cmd, x, rest, hi⟩
  obtain ⟨rfl, -⟩ := List.cons.inj (hh.symm.trans hi)
  rcases ha with ha | ha
  · cases ha
  · rw [hb] at ha; cases ha

/-- A step is the core's own, or takes the host's next action. -/
theorem step_eq (s : State) :
    step s = coreStep s ∨
    ∃ a more, s.host = a :: more ∧ (a.isIssue = false ∨ s.seq.busy = false) ∧
      step s = hostAct a { s with host := more } := by
  cases hh : s.host with
  | nil => exact .inl (step_core (.inl hh))
  | cons a more =>
    by_cases ha : a.isIssue = false ∨ s.seq.busy = false
    · exact .inr ⟨a, more, rfl, ha, step_host hh ha⟩
    · cases a with
      | issue cmd x =>
        have hb : s.seq.busy = true := by simpa using (not_or.1 ha).2
        exact .inl (step_core (.inr ((State.issueHeld_iff s).2 ⟨hb, cmd, x, more, hh⟩)))
      | _ => exact absurd (.inl rfl) ha

theorem issue_decoded {cmd : Command} {x : Operand} {i : Instr} (h : decodeWord cmd x = .ok i) (s : State) :
    issue cmd x s = exec i s := by
  simp [issue, h]

/-- Settles O7: an `Issue` is taken by `step_host`, the running command's step by `step_core` or as the host's
`letRun`. -/
theorem stepRunsTheDecodedInstruction : Obligations.StepRunsTheDecodedInstruction := by
  refine ⟨?issue, ?core, ?letRun⟩
  case issue =>
    intro s cmd x more i hb hh hd
    exact (step_host hh (.inr hb)).trans (issue_decoded hd _)
  case core =>
    intro s hb hh
    have hcore : s.host = [] ∨ s.issueHeld = true := hh.imp_right fun hi => (State.issueHeld_iff s).2 ⟨hb, hi⟩
    rw [step_core hcore, coreStep_busy hb]
  case letRun =>
    intro s more hb hh
    exact (step_host hh (.inl rfl)).trans (coreStep_busy hb)

/-! ### Reads -/

theorem readRegister_readable {r : ResultReg} {s : State} (h : s.readable r = true) :
    readRegister r s = .next { s with readout := some (s.valueOf r) } := if_pos h

theorem readRegister_unreadable {r : ResultReg} {s : State} (h : s.readable r = false) :
    readRegister r s = .fault (.unreadable r) := if_neg (by simp [h])

/-- Settles O11: in each readable case the value, in each other the fault. -/
theorem resultInterfaceReads : Obligations.ResultInterfaceReads := by
  intro s r more hh
  rw [step_host hh (.inl rfl), hostAct]
  constructor
  · intro v hv
    have hread : s.readable r = true ∧ v = s.valueOf r := by
      rcases hv with ⟨rfl, rfl⟩ | ⟨rfl, hq, rfl⟩ | ⟨rfl, hq, rfl⟩ | ⟨rfl, hq, ho, rfl⟩ | ⟨rfl, hq, hs, rfl⟩ |
        ⟨rfl, hq, hs, rfl⟩
      · exact ⟨rfl, rfl⟩
      · exact ⟨by simpa [State.readable] using hq, rfl⟩
      · exact ⟨by simp [State.readable, hq], rfl⟩
      · refine ⟨?_, rfl⟩
        rcases ho with ho | ho <;> simp [State.readable, hq, ho, Op.isEncoder]
      · exact ⟨by simp [State.readable, hq, hs], rfl⟩
      · exact ⟨by simp [State.readable, hq, hs], rfl⟩
    obtain ⟨hr, rfl⟩ := hread
    exact readRegister_readable (s := { s with host := more }) hr
  · intro hv
    refine readRegister_unreadable (s := { s with host := more }) (?_ : s.readable r = false)
    rcases hv with ⟨rfl, hd, he⟩ | ⟨rfl, hd⟩ | ⟨rfl, hd | ho | ho⟩ | ⟨rfl | rfl, he⟩
    · simp [State.readable, hd, he]
    · simp [State.readable, hd]
    · simp [State.readable, hd]
    · simp [State.readable, ho, Op.isEncoder]
    · simp [State.readable, ho, Op.isEncoder]
    · simpa [State.readable, ← not_and_or] using he
    · simpa [State.readable, ← not_and_or] using he

/-! ### What a step can do -/

/-- The core's own step is a wait, a held command, or the group step of the command OPR and WR name. -/
theorem coreStep_next {s t : State} (h : coreStep s = .next t) :
    t = s ∨ (s.isRunning s.opr s.wr = true ∧ groupStepOf s.opr s.wr s = .next t) := by
  cases hb : s.seq.busy with
  | false =>
    rw [coreStep_waiting hb] at h
    injection h with h
    exact .inl h.symm
  | true =>
    rw [coreStep_busy hb] at h
    rcases exec_of_next h with ⟨hidle, -⟩ | hg | ⟨-, -, rfl⟩
    · rw [hb] at hidle; cases hidle
    · exact .inr hg
    · exact .inl rfl

/-- An `Issue` taken while no command runs is the acceptance of some command. -/
theorem issue_next {cmd : Command} {x : Operand} {s t : State} (hb : s.seq.busy = false)
    (h : issue cmd x s = .next t) : ∃ o w y, t = s.start o w y := by
  unfold issue at h
  split at h
  · next i hi =>
    rw [exec_idle hb] at h
    exact ⟨_, _, _, (accept_next h).2⟩
  · cases h

/-- What the host's action can do when it is taken: reset, leave every register as it is, accept a command, or let the
running command take its group step. -/
theorem hostAct_next {a : HostAction} {s t : State} (ha : a.isIssue = false ∨ s.seq.busy = false)
    (h : hostAct a s = .next t) :
    (a = .reset ∧ t = applyReset s) ∨
    (∃ src snk readout, t = { s with src := src, snk := snk, readout := readout }) ∨
    (s.seq.busy = false ∧ ∃ o w x, t = s.start o w x) ∨
    (s.isRunning s.opr s.wr = true ∧ groupStepOf s.opr s.wr s = .next t) := by
  cases a with
  | issue cmd x =>
    have hb : s.seq.busy = false := ha.resolve_left (by simp [HostAction.isIssue])
    exact .inr (.inr (.inl ⟨hb, issue_next hb h⟩))
  | read r =>
    obtain ⟨-, rfl⟩ := readRegister_next h
    exact .inr (.inl ⟨_, _, _, rfl⟩)
  | reset =>
    injection h with h
    exact .inl ⟨rfl, h.symm⟩
  | connectSource _ | connectSink _ | routeSinkToSource =>
    rw [hostAct] at h
    obtain ⟨-, rfl⟩ := changeStreams_next h
    exact .inr (.inl ⟨_, _, _, rfl⟩)
  | letRun =>
    rcases coreStep_next h with rfl | hg
    · exact .inr (.inl ⟨_, _, _, rfl⟩)
    · exact .inr (.inr (.inr hg))

/-- What a step can do: reset, leave every register as it is, accept a command, or take the group step of the command
that runs. -/
theorem step_next {s t : State} (h : step s = .next t) :
    (∃ more, s.host = .reset :: more ∧ t = applyReset { s with host := more }) ∨
    (∃ src snk host readout, t = { s with src := src, snk := snk, host := host, readout := readout }) ∨
    (s.seq.busy = false ∧ ∃ o w x host, t = ({ s with host := host } : State).start o w x) ∨
    (s.isRunning s.opr s.wr = true ∧ ∃ host, groupStepOf s.opr s.wr { s with host := host } = .next t) := by
  rcases step_eq s with hcore | ⟨a, more, hh, ha, hact⟩
  · rw [hcore] at h
    rcases coreStep_next h with rfl | ⟨hr, hg⟩
    · exact .inr (.inl ⟨_, _, _, _, rfl⟩)
    · exact .inr (.inr (.inr ⟨hr, s.host, hg⟩))
  · rw [hact] at h
    rcases hostAct_next (s := { s with host := more }) ha h with
      ⟨rfl, ht⟩ | ⟨src, snk, readout, ht⟩ | ⟨hb, o, w, x, ht⟩ | ⟨hr, hg⟩
    · exact .inl ⟨more, hh, ht⟩
    · exact .inr (.inl ⟨src, snk, more, readout, ht⟩)
    · exact .inr (.inr (.inl ⟨hb, o, w, x, more, ht⟩))
    · exact .inr (.inr (.inr ⟨hr, more, hg⟩))

/-- Settles O43: of what a step can do, only the ends of a group step write result registers. -/
theorem resultRegistersAreWrittenAtTheEnd : Obligations.ResultRegistersAreWrittenAtTheEnd := by
  intro s t h hreset
  rcases step_next h with ⟨more, hh, -⟩ | ⟨src, snk, host, readout, rfl⟩ | ⟨-, o, w, x, host, rfl⟩ | ⟨hr, host, hg⟩
  · exact absurd hh (hreset more)
  · simp
  · simp
  · have hq := State.isRunning_seq hr
    cases ho : s.opr.isEncoder with
    | true =>
      rw [runningSeq_encoder ho] at hq
      obtain ⟨r, last, he⟩ := groupStepOf_encoder ho s.wr { s with host := host }
      obtain ⟨snk, d, u, rfl, ⟨info, kept, -, -, rfl⟩ | ⟨-, -, rfl⟩ | ⟨-, -, rfl⟩⟩ := emitGroup_outcome (he ▸ hg) <;>
        simp [hq, Seq.busy]
    | false =>
      rw [runningSeq_decoder ho] at hq
      obtain ⟨a, d, u, rfl, ⟨-, rfl⟩ | ⟨info, -, rfl⟩ | ⟨b, v, -, rfl, rfl | ⟨-, rfl⟩ | rfl⟩⟩ :=
        groupStepOf_decoder_next ho hg <;> simp [hq, ho, Seq.busy]

end Sys2Proof.Machine
end

section
/-! PROOFS. The invariant of the registers (10_state.md R24 to R29, 60_exceptions.md R200 to R205): every step keeps it,
by the kind of step; GIDX's bound follows. -/

namespace Sys2Proof.Machine

/-! ### The invariant, by STATE and OPR -/

theorem State.inv_of_encoding {s : State} (h : s.seq = .encoding) : s.Inv ↔ s.encodingInv := by
  simp [State.Inv, h]

theorem State.inv_of_reading {s : State} (h : s.seq = .reading) : s.Inv ↔ s.readingInv := by
  simp [State.Inv, h]

theorem State.inv_of_done {s : State} (h : s.seq = .done) : s.Inv ↔ s.doneInv := by
  simp [State.Inv, h]

theorem State.inv_of_error {s : State} (h : s.seq = .error) : s.Inv ↔ s.errorInv := by
  simp [State.Inv, h]

/-- With no extra signed group the bound is N(W) for every command. -/
@[simp] theorem State.groupBound_eq (s : State) : s.groupBound = s.wr.groups := by
  unfold State.groupBound
  cases s.opr <;> rfl

theorem State.encodingInv_encu {s : State} (h : s.opr = .encu) :
    s.encodingInv ↔ s.gidx.toNat < s.wr.groups ∧ s.rem.toNat < 2 ^ (s.wr.bits - 7 * s.gidx.toNat) := by
  simp [State.encodingInv, h]

theorem State.encodingInv_encs {s : State} (h : s.opr = .encs) :
    s.encodingInv ↔ s.gidx.toNat < s.wr.groups ∧
      -(2 ^ (s.wr.bits - 1 - 7 * s.gidx.toNat) : Int) ≤ s.rem.toInt ∧
      s.rem.toInt < 2 ^ (s.wr.bits - 1 - 7 * s.gidx.toNat) := by
  simp [State.encodingInv, h]

theorem State.encodingInv_gidx {s : State} (h : s.encodingInv) : s.gidx.toNat < s.wr.groups := h.1

theorem State.readingInv_decoder {s : State} (h : s.opr.isEncoder = false) :
    s.readingInv ↔ s.acc.toNat < 2 ^ (7 * s.gidx.toNat) ∧ s.gidx.toNat < s.wr.groups := by
  unfold State.readingInv
  cases ho : s.opr <;> simp_all [Op.isEncoder]

theorem State.readingInv_gidx {s : State} (h : s.readingInv) : s.gidx.toNat < s.wr.groups := by
  obtain ⟨-, hop⟩ := h
  cases ho : s.opr with
  | encu | encs => simp [ho] at hop
  | decu | decs => simpa [ho] using hop

theorem State.doneInv_encoder {s : State} (h : s.opr.isEncoder = true) :
    s.doneInv ↔ s.status = .ok ∧ 1 ≤ s.count.toNat ∧ s.count.toNat ≤ s.wr.groups ∧ s.gidx = s.count := by
  unfold State.doneInv
  cases ho : s.opr <;> simp_all [Op.isEncoder]

/-- The extension of the low W bits that a decoder's RESULT is. -/
def extendOperand (o : Op) (w : Width) (x : Operand) : Operand :=
  if o = .decu then zextOperand w x else sextOperand w x

theorem State.doneInv_decoder {s : State} (h : s.opr.isEncoder = false) :
    s.doneInv ↔ s.status = .ok ∧ 1 ≤ s.count.toNat ∧ s.count.toNat ≤ s.wr.groups ∧ s.gidx + 1 = s.count ∧
      s.result = extendOperand s.opr s.wr s.result := by
  unfold State.doneInv extendOperand
  cases ho : s.opr <;> simp_all [Op.isEncoder]

/-! ### Acceptance -/

theorem zextOperand_lt (w : Width) (x : Operand) : (zextOperand w x).toNat < 2 ^ w.bits := by
  rw [zextOperand_toNat]
  exact Nat.mod_lt _ (Nat.two_pow_pos _)

theorem sextOperand_bounds (w : Width) (x : Operand) :
    -(2 ^ (w.bits - 1) : Int) ≤ (sextOperand w x).toInt ∧ (sextOperand w x).toInt < 2 ^ (w.bits - 1) := by
  rw [sextOperand, BitVec.toInt_signExtend_of_le w.bits_le]
  exact ⟨BitVec.le_toInt _, BitVec.toInt_lt⟩

/-- The state a command starts in meets the invariant, whatever was before. -/
theorem State.start_inv (o : Op) (w : Width) (x : Operand) (s : State) : (s.start o w x).Inv := by
  have hpos : 0 < w.groups := w.groups_spec.2.2
  cases o with
  | encu => exact (State.encodingInv_encu (s := s.start .encu w x) rfl).2 ⟨hpos, zextOperand_lt w x⟩
  | encs => exact (State.encodingInv_encs (s := s.start .encs w x) rfl).2 ⟨hpos, sextOperand_bounds w x⟩
  | decu => exact (State.readingInv_decoder (s := s.start .decu w x) rfl).2 ⟨Nat.two_pow_pos _, hpos⟩
  | decs => exact (State.readingInv_decoder (s := s.start .decs w x) rfl).2 ⟨Nat.two_pow_pos _, hpos⟩

/-! ### The group steps -/

theorem gidx_succ_mod (g : BitVec 5) : (g + 1).toNat = (g.toNat + 1) % 32 := BitVec.toNat_add g 1

/-- Below the group bound GIDX does not wrap round. -/
theorem gidx_succ_toNat {g : BitVec 5} {w : Width} (h : g.toNat < w.groups) : (g + 1).toNat = g.toNat + 1 := by
  have hle := w.groups_le
  rw [gidx_succ_mod]
  omega

/-- When ENCU goes on, a further group is left, and REM is what is left of a W-bit value there. -/
theorem encu_goesOn {w : Width} {g : Nat} {r : Operand} (h : r.toNat < 2 ^ (w.bits - 7 * g))
    (hlast : encuLast (shiftUnsigned r) = false) :
    g + 1 < w.groups ∧ (shiftUnsigned r).toNat < 2 ^ (w.bits - 7 * (g + 1)) := by
  have hr : 2 ^ 7 ≤ r.toNat := by rwa [← Bool.not_eq_true, encuLast_iff, Nat.not_lt] at hlast
  have hbits : 7 < w.bits - 7 * g := (Nat.pow_lt_pow_iff_right (by decide)).1 (hr.trans_lt h)
  have hpow : 2 ^ (w.bits - 7 * g) = 128 * 2 ^ (w.bits - 7 * (g + 1)) := by
    rw [show w.bits - 7 * g = 7 + (w.bits - 7 * (g + 1)) by omega, Nat.pow_add]
  obtain ⟨-, hw, -⟩ := w.groups_spec
  rw [shiftUnsigned_toNat]
  exact ⟨by omega, by omega⟩

/-- The same for ENCS. -/
theorem encs_goesOn {w : Width} {g : Nat} {r : Operand} (hlo : -(2 ^ (w.bits - 1 - 7 * g) : Int) ≤ r.toInt)
    (hhi : r.toInt < 2 ^ (w.bits - 1 - 7 * g)) (hlast : encsLast (shiftSigned r) (lowGroup r) = false) :
    g + 1 < w.groups ∧ -(2 ^ (w.bits - 1 - 7 * (g + 1)) : Int) ≤ (shiftSigned r).toInt ∧
      (shiftSigned r).toInt < 2 ^ (w.bits - 1 - 7 * (g + 1)) := by
  have hr : ¬(-64 ≤ r.toInt ∧ r.toInt < 64) := by rwa [← Bool.not_eq_true, encsLast_iff] at hlast
  have hbits : 6 < w.bits - 1 - 7 * g := by
    by_contra hle
    have hpow : (2 : Int) ^ (w.bits - 1 - 7 * g) ≤ 2 ^ 6 := pow_le_pow_right₀ (by decide) (by omega)
    omega
  have hpow : (2 : Int) ^ (w.bits - 1 - 7 * g) = 128 * 2 ^ (w.bits - 1 - 7 * (g + 1)) := by
    rw [show w.bits - 1 - 7 * g = 7 + (w.bits - 1 - 7 * (g + 1)) by omega, pow_add]
    rfl
  obtain ⟨-, hw, -⟩ := w.groups_spec
  rw [shiftSigned_toInt]
  exact ⟨by omega, by omega, by omega⟩

/-- An encoder's group step keeps the invariant, if it does where it goes on. -/
theorem emitGroup_inv {r : Operand} {last : Bool} {b : Byte} {s t : State} (hq : s.seq = .encoding)
    (ho : s.opr.isEncoder = true) (hg : s.gidx.toNat < s.wr.groups)
    (hnext : last = false → ({ s with rem := r, gidx := s.gidx + 1 } : State).encodingInv)
    (h : emitGroup r last b s = .next t) : t.Inv := by
  have hsucc := gidx_succ_toNat hg
  obtain ⟨snk, d, u, rfl, ⟨info, kept, -, -, rfl⟩ | ⟨-, -, rfl⟩ | ⟨hl, -, rfl⟩⟩ := emitGroup_outcome h
  · exact ⟨by simpa using hg, by simp [ho]⟩
  · refine (State.doneInv_encoder (by exact ho)).2 ⟨rfl, ?_, ?_, rfl⟩ <;>
      simp only [State.finishEncode_count, State.finishEncode_wr] <;> omega
  · exact (State.inv_of_encoding (by exact hq)).2 (hnext hl)

theorem zextOperand_unsignedResult (w : Width) (acc : Acc) :
    zextOperand w (unsignedResult w acc) = unsignedResult w acc := by
  rw [← BitVec.toNat_inj, zextOperand_toNat, unsignedResult_toNat, Nat.mod_mod]

theorem setWidth_signExtend_of_le {m n : Nat} (h : m ≤ n) (x : BitVec m) : (x.signExtend n).setWidth m = x := by
  refine BitVec.eq_of_getLsbD_eq fun i hi => ?_
  rw [BitVec.getLsbD_setWidth, BitVec.getLsbD_signExtend]
  simp [hi, hi.trans_le h]

theorem sextOperand_signedResult (w : Width) (x : Acc) : sextOperand w (signedResult w x) = signedResult w x := by
  rw [sextOperand, signedResult, setWidth_signExtend_of_le w.bits_le]

/-- What a decoder ends with is the extension of its low W bits. -/
theorem extendOperand_decodedValue (o : Op) (w : Width) (k : Nat) (acc : Acc) :
    extendOperand o w (decodedValue o w k acc) = decodedValue o w k acc := by
  unfold extendOperand decodedValue
  split
  · exact zextOperand_unsignedResult w acc
  · exact sextOperand_signedResult w _

/-- A decoder's read step keeps the invariant. -/
theorem decoder_groupStep_inv {s t : State} (hq : s.seq = .reading) (ho : s.opr.isEncoder = false)
    (hs : s.readingInv) (h : groupStepOf s.opr s.wr s = .next t) : t.Inv := by
  obtain ⟨hacc, hg⟩ := (State.readingInv_decoder ho).1 hs
  have hsucc := gidx_succ_toNat hg
  have hle := s.wr.groups_le
  obtain ⟨a, d, u, rfl, ⟨-, rfl⟩ | ⟨info, -, rfl⟩ | ⟨b, v, -, rfl, rfl | ⟨hk, rfl⟩ | rfl⟩⟩ :=
    groupStepOf_decoder_next ho h
  · exact ⟨by simpa using hg, ho⟩
  · exact ⟨by simpa using hg, by simp [ho]⟩
  · exact ⟨by simpa using hg, ho⟩
  · refine (State.inv_of_reading (by exact hq)).2 ((State.readingInv_decoder (by exact ho)).2 ⟨?_, ?_⟩)
    · simpa only [hsucc] using accWrite_lt (by omega) hacc (payload b)
    · simp only [hsucc]; omega
  · refine (State.doneInv_decoder (by exact ho)).2 ⟨rfl, ?_, ?_, rfl, (extendOperand_decodedValue ..).symm⟩ <;>
      simp only [State.finishDecode_count, State.finishDecode_wr] <;> omega

/-- The group step of the command that runs keeps the invariant. -/
theorem groupStep_inv {s t : State} (hs : s.Inv) (hr : s.isRunning s.opr s.wr = true)
    (h : groupStepOf s.opr s.wr s = .next t) : t.Inv := by
  have hq := State.isRunning_seq hr
  cases ho : s.opr with
  | encu =>
    rw [ho] at h hq
    obtain ⟨hg, hrem⟩ := (State.encodingInv_encu ho).1 ((State.inv_of_encoding hq).1 hs)
    refine emitGroup_inv hq (by simp [ho, Op.isEncoder]) hg (fun hlast => ?_) h
    rw [State.encodingInv_encu (by exact ho), gidx_succ_toNat hg]
    exact encu_goesOn hrem hlast
  | encs =>
    rw [ho] at h hq
    obtain ⟨hg, hlo, hhi⟩ := (State.encodingInv_encs ho).1 ((State.inv_of_encoding hq).1 hs)
    refine emitGroup_inv hq (by simp [ho, Op.isEncoder]) hg (fun hlast => ?_) h
    rw [State.encodingInv_encs (by exact ho), gidx_succ_toNat hg]
    exact encs_goesOn hlo hhi hlast
  | decu | decs =>
    have hdec : s.opr.isEncoder = false := by simp [ho, Op.isEncoder]
    rw [runningSeq_decoder hdec] at hq
    exact decoder_groupStep_inv hq hdec ((State.inv_of_reading hq).1 hs) h

/-! ### Every step -/

/-- Settles O46: the invariant does not see what the host changes, any acceptance begins it anew, and the group step of
the running command keeps it. -/
theorem everyStepKeepsTheInvariant : Obligations.EveryStepKeepsTheInvariant := by
  intro s t hs h
  rcases step_next h with ⟨more, -, rfl⟩ | ⟨src, snk, host, readout, rfl⟩ | ⟨-, o, w, x, host, rfl⟩ | ⟨hr, host, hg⟩
  · trivial
  · exact hs
  · exact State.start_inv o w x _
  · exact groupStep_inv (s := { s with host := host }) hs hr hg

/-- Only W = 128 has 19 groups. -/
theorem Width.eq_w128_of_lt_groups {w : Width} (h : 18 < w.groups) : w = .w128 := by
  revert h
  cases w <;> decide

/-- The bound of R25 in any state that meets the invariant. -/
theorem State.Inv.gidx_le {s : State} (hs : s.Inv) (hi : s.seq ≠ .idle)
    (hd : s.seq ≠ .done ∨ s.opr.isEncoder = false) : s.gidx.toNat ≤ 18 := by
  have hle := s.wr.groups_le
  cases hq : s.seq with
  | idle => exact absurd hq hi
  | encoding =>
    have := State.encodingInv_gidx ((State.inv_of_encoding hq).1 hs)
    omega
  | reading =>
    have := State.readingInv_gidx ((State.inv_of_reading hq).1 hs)
    omega
  | done =>
    obtain ⟨-, hpos, hcount, hlast, -⟩ :=
      (State.doneInv_decoder (hd.resolve_left (not_not_intro hq))).1 ((State.inv_of_done hq).1 hs)
    rw [← hlast, gidx_succ_mod] at hpos hcount
    omega
  | error =>
    obtain ⟨hg, -⟩ := (State.inv_of_error hq).1 hs
    rw [State.groupBound_eq] at hg
    omega

/-- After an encode GIDX is COUNT, past 18 only where that is 19 at W = 128. -/
theorem State.Inv.gidx_after_encode {s : State} (hs : s.Inv) (hq : s.seq = .done) (ho : s.opr.isEncoder = true) :
    s.gidx = s.count ∧ (18 < s.gidx.toNat → s.gidx.toNat = 19 ∧ s.wr = .w128) := by
  obtain ⟨-, -, hcount, hgidx⟩ := (State.doneInv_encoder ho).1 ((State.inv_of_done hq).1 hs)
  have hle := s.wr.groups_le
  rw [← hgidx] at hcount
  exact ⟨hgidx, fun h => ⟨by omega, Width.eq_w128_of_lt_groups (h.trans_le hcount)⟩⟩

/-- Settles O47: the invariant that the step keeps gives both bounds. -/
theorem groupIndexStaysInItsBound : Obligations.GroupIndexStaysInItsBound := by
  intro s t hs h hi
  have ht : t.Inv := everyStepKeepsTheInvariant s t hs h
  exact ⟨ht.gidx_le hi, ht.gidx_after_encode⟩

end Sys2Proof.Machine
end

section
/-! PROOFS. Between commands GIDX is seen by nothing (10_state.md R31, R36): each part of a step on the state with
another GIDX. -/

namespace Sys2Proof.Machine

/-- Acceptance writes GIDX without reading it. -/
theorem accept_with_gidx (o : Op) (w : Width) (x : Operand) (g : BitVec 5) (s : State) :
    accept o w x { s with gidx := g } = accept o w x s := by
  have hstart : ({ s with gidx := g } : State).start o w x = s.start o w x := by cases o <;> rfl
  rw [accept, accept, hstart]
  rfl

theorem issue_with_gidx {s : State} (hb : s.seq.busy = false) (cmd : Command) (x : Operand) (g : BitVec 5) :
    issue cmd x { s with gidx := g } = issue cmd x s := by
  have hexec : ∀ i, exec i { s with gidx := g } = exec i s := fun i => by
    rw [exec_idle (s := { s with gidx := g }) hb, exec_idle hb, accept_with_gidx]
  simp only [issue, hexec]

theorem applyReset_with_gidx {s : State} (hb : s.seq.busy = false) (g : BitVec 5) :
    applyReset { s with gidx := g } = applyReset s := by
  simp [applyReset, hb]

theorem changeStreams_idle {s : State} (hb : s.seq.busy = false) (f : State → State) :
    changeStreams f s = .next (f s) := by
  simp [changeStreams, hb]

/-- A host's action, another GIDX: the same outcome, or the same next state but for GIDX. -/
theorem hostAct_with_gidx {s : State} (hb : s.seq.busy = false) (a : HostAction) (g : BitVec 5) :
    hostAct a { s with gidx := g } = hostAct a s ∨
    ∃ t, t.seq.busy = false ∧ hostAct a s = .next t ∧ hostAct a { s with gidx := g } = .next { t with gidx := g } := by
  have hbg : ({ s with gidx := g } : State).seq.busy = false := hb
  cases a with
  | issue cmd x => exact .inl (issue_with_gidx hb cmd x g)
  | reset => exact .inl (congrArg Host.Outcome.next (applyReset_with_gidx hb g))
  | read r =>
    cases hr : s.readable r with
    | true =>
      exact .inr ⟨{ s with readout := some (s.valueOf r) }, hb, readRegister_readable hr,
        readRegister_readable (s := { s with gidx := g }) hr⟩
    | false =>
      exact .inl ((readRegister_unreadable (s := { s with gidx := g }) hr).trans (readRegister_unreadable hr).symm)
  | connectSource _ | connectSink _ | routeSinkToSource =>
    rw [hostAct, hostAct, changeStreams_idle hb, changeStreams_idle hbg]
    refine .inr ⟨_, ?_, rfl, rfl⟩
    exact hb
  | letRun => exact .inr ⟨s, hb, coreStep_waiting hb, coreStep_waiting hbg⟩

/-- A step, another GIDX: the same outcome, or the same next state but for GIDX. -/
theorem step_with_gidx {s : State} (hb : s.seq.busy = false) (g : BitVec 5) :
    step { s with gidx := g } = step s ∨
    ∃ t, t.seq.busy = false ∧ step s = .next t ∧ step { s with gidx := g } = .next { t with gidx := g } := by
  have hbg : ({ s with gidx := g } : State).seq.busy = false := hb
  by_cases hh : s.host = []
  · exact .inr ⟨s, hb, (step_core (.inl hh)).trans (coreStep_waiting hb),
      (step_core (s := { s with gidx := g }) (.inl hh)).trans (coreStep_waiting hbg)⟩
  · obtain ⟨a, more, hh⟩ := List.exists_cons_of_ne_nil hh
    rw [step_host hh (.inr hb), step_host (s := { s with gidx := g }) hh (.inr hb)]
    exact hostAct_with_gidx (s := { s with host := more }) hb a g

/-- Settles O48: the host's view reads no GIDX, and a step is as `step_with_gidx` says. -/
theorem groupIndexBetweenCommandsIsNotObservable : Obligations.GroupIndexBetweenCommandsIsNotObservable := by
  rintro s _ g hb rfl
  refine ⟨rfl, ?_⟩
  rcases step_with_gidx hb g with heq | ⟨t, ht, hs, hu⟩
  · rw [heq]
    exact ⟨fun _ h => .inl h, fun _ h => h, fun _ h => h⟩
  · rw [hs, hu]
    refine ⟨fun t' h => ?_, nofun, nofun⟩
    injection h with h
    exact h ▸ .inr ⟨ht, rfl⟩

end Sys2Proof.Machine
end

section
/-! PROOFS. The ports and the host's changes to them (20_memory.md R50 to R56, R64, R65): one transaction, a port that
never answers, a stream changed, shared or routed. -/

namespace Sys2Proof.Machine

/-! ### One transaction -/

/-- A source with nothing listed that repeats one answer gives that answer. -/
theorem srcNext_always {s : State} {a : SrcAnswer} (hl : s.src.listed = []) (hr : s.src.rest = .always a) :
    srcNext s = some (a, { s with src := Source.answered a s.src }) := by
  simp [srcNext, hl, hr]

theorem snkPut_listed {s : State} {a : SnkAnswer} {more : List SnkAnswer} (h : s.snk.listed = a :: more) (b : Byte) :
    snkPut b s = some (a, sinkAnswered a b { s with snk := { s.snk with listed := more } }) := by
  simp [snkPut, h]

/-- A sink with nothing listed that repeats one answer gives that answer. -/
theorem snkPut_always {s : State} {a : SnkAnswer} (hl : s.snk.listed = []) (hr : s.snk.rest = .always a) (b : Byte) :
    snkPut b s = some (a, sinkAnswered a b s) := by
  simp [snkPut, hl, hr]

/-- Two accounts of one transaction give the same answer. -/
theorem answer_unique {α : Type} {r : Option (α × State)} {a c : α} {t u : State} (h : r = some (a, t))
    (h' : r = some (c, u)) : a = c :=
  congrArg Prod.fst (Option.some.inj (h.symm.trans h'))

/-- Settles O23: `srcNext_some` gives the state after, `srcNext_listed` and `srcNext_always` the answer. -/
theorem sourceTransaction : Obligations.SourceTransaction := by
  intro s t a h
  obtain ⟨d, rfl⟩ := srcNext_some h
  refine ⟨by simp, by simp, by simp, ?byte, ?noByte, ?listed, ?repeated, rfl⟩
  case byte => rintro b rfl; rfl
  case noByte => rintro (rfl | ⟨info, rfl⟩) <;> rfl
  case listed => exact fun c more hl => answer_unique h (srcNext_listed hl)
  case repeated => exact fun hl c hr => answer_unique h (srcNext_always hl hr)

/-- Settles O24: likewise from `snkPut_some`, and what the sink holds from what each answer does. -/
theorem sinkTransaction : Obligations.SinkTransaction := by
  intro s t a b h
  obtain ⟨d, rfl⟩ := snkPut_some h
  refine ⟨by simp, by simp, by simp, ?accepted, ?failed, ?listed, ?repeated, ?frame⟩
  case accepted => rintro rfl; exact sinkAnswered_ok_bytes b _
  case failed => exact fun _ _ => sinkAnswered_bytes a b _
  case listed => exact fun c more hl => answer_unique h (snkPut_listed hl b)
  case repeated => exact fun hl c hr => answer_unique h (snkPut_always hl hr b)
  case frame => cases a <;> rfl

/-! ### A port that never answers -/

theorem emitGroup_silent {s : State} (hl : s.snk.listed = []) (hr : s.snk.rest = .silent) (r : Operand) (last : Bool)
    (b : Byte) : emitGroup r last b s = .fault .sinkSilent := by
  simp [emitGroup, (snkPut_none_iff b { s with rem := r }).2 ⟨hl, hr⟩]

theorem readGroup_silent {s : State} (hl : s.src.listed = []) (hr : s.src.rest = .silent)
    (f : Byte → State → Result) : readGroup f s = .fault .sourceSilent := by
  simp [readGroup, (srcNext_none_iff s).2 ⟨hl, hr⟩]

/-- Settles O25: the running command's step is its group step, whose one transaction is not answered. -/
theorem silentPortsStopTheCore : Obligations.SilentPortsStopTheCore := by
  intro o w x s hr
  rw [exec_of, command_running hr]
  constructor
  · intro ho hl hs
    obtain ⟨r, last, hg⟩ := groupStepOf_encoder ho w s
    rw [hg, emitGroup_silent hl hs]
  · intro ho hl hs
    rw [groupStepOf_decoder ho, readGroup_silent hl hs]

/-! ### The host's changes to the streams -/

theorem changeStreams_busy {s : State} (hb : s.seq.busy = true) (f : State → State) :
    changeStreams f s = .refused .streamChangedWhileRunning := by
  simp [changeStreams, hb]

/-- Settles O15: each of the three actions is `changeStreams` of its change. -/
theorem streamChangesOnlyBetweenCommands : Obligations.StreamChangesOnlyBetweenCommands := by
  intro s x y more
  constructor
  · intro hb
    have hidle := changeStreams_idle (s := { s with host := more }) hb
    refine ⟨?source, ?sink, ?route⟩ <;> intro hh
    case source => rw [step_host hh (.inl rfl), hostAct, hidle]
    case sink => rw [step_host hh (.inl rfl), hostAct, hidle]
    case route => rw [step_host hh (.inl rfl), hostAct, hidle]
  · intro hb
    have hbusy := changeStreams_busy (s := { s with host := more }) hb
    rintro (hh | hh | hh) <;> rw [step_host hh (.inl rfl), hostAct, hbusy]

/-- Settles O16: the routed source is the one `Sink.asSource` names. -/
theorem routedSinkIsReadBack : Obligations.RoutedSinkIsReadBack := by
  intro s more hb hh
  obtain ⟨-, -, hroute⟩ := (streamChangesOnlyBetweenCommands s s.src s.snk more).1 hb
  exact ⟨_, hroute hh, rfl, rfl, rfl, rfl, rfl⟩

theorem accept_shared {s : State} (h : s.src.shared = true ∨ s.snk.shared = true) (o : Op) (w : Width) (x : Operand) :
    accept o w x s = .refused .sharedStream := by
  rcases h with h | h <;> simp [accept, State.ownsStreams, h]

/-- Settles O21: with no command running, any command's step is its acceptance. -/
theorem sharedStreamsAreRefused : Obligations.SharedStreamsAreRefused := by
  intro i s hb h
  rw [exec_idle hb, accept_shared h]

end Sys2Proof.Machine
end

section
/-! PROOFS. Group sequences as numbers (30_encoding.md R71, R72, R77): what one more group adds, what as many groups can
hold, and the signed value as two's complement of the unsigned one. -/

namespace Sys2Proof.Machine

/-! ### Well-formed sequences -/

theorem allContinue_nil : allContinue [] := nofun

theorem allContinue_append_singleton {bs : List Byte} {b : Byte} :
    allContinue (bs ++ [b]) ↔ allContinue bs ∧ 128 ≤ b.toNat := by
  simp [allContinue, or_imp, forall_and]

theorem allContinue_cons {b : Byte} {bs : List Byte} : allContinue (b :: bs) ↔ 128 ≤ b.toNat ∧ allContinue bs := by
  simp [allContinue]

/-- R72: continuing groups and then one that does not continue. -/
theorem groupsWf_iff (bytes : List Byte) :
    groupsWf bytes ↔ ∃ bs b, bytes = bs ++ [b] ∧ allContinue bs ∧ b.toNat < 128 := by
  constructor
  · intro h
    induction bytes with
    | nil => exact h.elim
    | cons c rest ih =>
      cases rest with
      | nil => exact ⟨[], c, rfl, allContinue_nil, h⟩
      | cons d more =>
        obtain ⟨hc, hrest⟩ := h
        obtain ⟨bs, b, heq, hbs, hb⟩ := ih hrest
        exact ⟨c :: bs, b, by rw [heq]; rfl, allContinue_cons.2 ⟨hc, hbs⟩, hb⟩
  · rintro ⟨bs, b, rfl, hbs, hb⟩
    induction bs with
    | nil => exact hb
    | cons c rest ih =>
      obtain ⟨hc, hrest⟩ := allContinue_cons.1 hbs
      cases rest with
      | nil => exact ⟨hc, hb⟩
      | cons d more => exact ⟨hc, ih hrest⟩

/-! ### Values -/

/-- Group k counts at bit offset 7k. -/
theorem groupsValue_append_singleton (bs : List Byte) (b : Byte) :
    groupsValue (bs ++ [b]) = groupsValue bs + b.toNat % 128 * 2 ^ (7 * bs.length) := by
  induction bs with
  | nil => simp [groupsValue]
  | cons c rest ih =>
    have hpow : 2 ^ (7 * (rest.length + 1)) = 128 * 2 ^ (7 * rest.length) := by rw [Nat.mul_succ, Nat.pow_add]; omega
    simp only [List.cons_append, groupsValue, ih, List.length_cons, hpow]
    ring

/-- n groups hold 7n bits. -/
theorem groupsValue_lt (bytes : List Byte) : groupsValue bytes < 2 ^ (7 * bytes.length) := by
  induction bytes with
  | nil => exact Nat.one_pos
  | cons b rest ih =>
    rw [List.length_cons, Nat.mul_succ, Nat.pow_add, groupsValue]
    omega

theorem groupsSigned_cons_cons (b c : Byte) (more : List Byte) :
    groupsSigned (b :: c :: more) = ((b.toNat % 128 : Nat) : Int) + 128 * groupsSigned (c :: more) := rfl

/-- R77: bit 6 of the last group says which half of the 7n-bit numbers the value lies in. -/
theorem groupsSigned_eq {bytes : List Byte} (h : bytes ≠ []) :
    groupsSigned bytes =
      if 2 * groupsValue bytes < 2 ^ (7 * bytes.length) then (groupsValue bytes : Int)
      else groupsValue bytes - ((2 ^ (7 * bytes.length) : Nat) : Int) := by
  induction bytes with
  | nil => exact absurd rfl h
  | cons b rest ih =>
    cases rest with
    | nil => 
      simp only [groupsSigned, groupsValue, List.length_singleton, Nat.mul_one, Nat.mul_zero, Nat.add_zero]
      split_ifs <;> omega
    | cons c more =>
      have hrest := ih (List.cons_ne_nil c more)
      have heven : 2 ^ (7 * (c :: more).length) = 2 * 2 ^ (7 * (c :: more).length - 1) :=
        (mul_pow_sub_one (by simp) 2).symm
      rw [List.length_cons, Nat.mul_succ, Nat.pow_add, groupsSigned_cons_cons, groupsValue, hrest]
      split_ifs <;> omega

/-- The signed value is the unsigned one read as two's complement of 7n bits. -/
theorem groupsSigned_eq_toInt {bytes : List Byte} (h : bytes ≠ []) :
    groupsSigned bytes = (BitVec.ofNat (7 * bytes.length) (groupsValue bytes)).toInt := by
  rw [groupsSigned_eq h, BitVec.toInt_eq_toNat_cond, BitVec.toNat_ofNat, Nat.mod_eq_of_lt (groupsValue_lt bytes)]

end Sys2Proof.Machine
end

section
/-! PROOFS. The accumulator after the groups of a sequence, and what DECU and DECS do with a byte whose payload is in
place (41_uleb128_decoder.md R131 to R134, 42_sleb128.md R171 to R175). -/

namespace Sys2Proof.Machine

/-! ### The accumulator of a sequence -/

/-- ACC once the groups of `bytes` have been placed in it, from zero (41 R131, 42 R171). -/
def accOf (bytes : List Byte) : Acc := BitVec.ofNat 140 (groupsValue bytes)

theorem accOf_toNat {bytes : List Byte} (h : bytes.length ≤ 20) : (accOf bytes).toNat = groupsValue bytes := by
  have hpow : 2 ^ (7 * bytes.length) ≤ 2 ^ 140 := Nat.pow_le_pow_right (by decide) (by omega)
  rw [accOf, BitVec.toNat_ofNat, Nat.mod_eq_of_lt ((groupsValue_lt bytes).trans_le hpow)]

/-- Placing one more payload gives the accumulator of one more byte. -/
theorem accWrite_accOf {bs : List Byte} (h : bs.length < 20) (b : Byte) :
    accWrite (accOf bs) bs.length (payload b) = accOf (bs ++ [b]) := by
  have hlen : (bs ++ [b]).length ≤ 20 := by rw [List.length_append, List.length_singleton]; omega
  have hacc := accOf_toNat h.le
  rw [← BitVec.toNat_inj, accOf_toNat hlen, accWrite_toNat h (hacc ▸ groupsValue_lt bs), hacc, payload_toNat,
    groupsValue_append_singleton]

/-- The sign extension of all the groups is the signed value of the sequence (42 R173). -/
theorem sextAcc_accOf {bytes : List Byte} (h : bytes ≠ []) (hlen : bytes.length ≤ 20) :
    (sextAcc (accOf bytes) bytes.length).toInt = groupsSigned bytes := by
  rw [sextAcc_toInt _ _ hlen, groupsSigned_eq_toInt h, accOf, BitVec.setWidth_ofNat_of_le (by omega)]

/-! ### What is done with a byte -/

theorem contBit_eq_false_iff (b : Byte) : contBit b = false ↔ b.toNat < 128 := by
  rw [← Bool.not_eq_true, contBit_iff, Nat.not_le]

theorem payloadOverflow_eq_false_iff (w : Width) (acc : Acc) :
    payloadOverflow w acc = false ↔ acc.toNat < 2 ^ w.bits := by
  rw [← Bool.not_eq_true, payloadOverflow_iff, Nat.not_le]

/-- Before the last group either decoder goes on after a byte that continues: what has been read is below bit W. -/
theorem byteStepOf_continues {o : Op} {w : Width} {b : Byte} {s : State} (hb : 128 ≤ b.toNat)
    (hk : s.gidx.toNat + 1 < w.groups) (hacc : s.acc.toNat < 2 ^ (7 * (s.gidx.toNat + 1))) :
    byteStepOf o w b s = .next { s with gidx := s.gidx + 1 } := by
  have hc := (contBit_iff b).2 hb
  have hbound : atBound s.gidx.toNat w.groups = false := by rw [← Bool.not_eq_true, atBound_iff]; omega
  unfold byteStepOf
  split
  · have hbits : 2 ^ (7 * (s.gidx.toNat + 1)) ≤ 2 ^ w.bits :=
      Nat.pow_le_pow_right (by decide) (by have := w.groups_spec.1; omega)
    have hfits := (payloadOverflow_eq_false_iff w s.acc).2 (hacc.trans_le hbits)
    simp [decuByte, hfits, hc, hbound]
  · simp [decsByte_of_contBit hc, hbound]

/-- At the last group either decoder overflows on a byte that continues (41 R133, 42 R172). -/
theorem byteStepOf_overflows_at_bound {o : Op} {w : Width} {b : Byte} {s : State} (hb : 128 ≤ b.toNat)
    (hk : s.gidx.toNat + 1 = w.groups) : byteStepOf o w b s = .next s.raiseOverflow := by
  have hc := (contBit_iff b).2 hb
  have hbound := (atBound_iff s.gidx.toNat w.groups).2 hk
  unfold byteStepOf
  split
  · simp [decuByte, hc, hbound]
  · simp [decsByte_of_contBit hc, hbound]

/-- DECU overflows on any payload that reaches bit W (41 R132). -/
theorem byteStepOf_decu_overflows {w : Width} {b : Byte} {s : State} (h : 2 ^ w.bits ≤ s.acc.toNat) :
    byteStepOf .decu w b s = .next s.raiseOverflow := by
  simp [byteStepOf, decuByte, (payloadOverflow_iff w s.acc).2 h]

/-- DECU ends at a terminating byte whose value fits (41 R134). -/
theorem byteStepOf_decu_ends {w : Width} {b : Byte} {s : State} (hb : b.toNat < 128) (h : s.acc.toNat < 2 ^ w.bits) :
    byteStepOf .decu w b s = .next (s.finishDecode (unsignedResult w s.acc) (s.gidx + 1)) := by
  have hc := (contBit_eq_false_iff b).2 hb
  have hfits := (payloadOverflow_eq_false_iff w s.acc).2 h
  simp [byteStepOf, decuByte, hc, hfits]

/-- DECS at a terminating byte: the end if the value of all the groups fits, else Overflow (42 R173, R174). -/
theorem byteStepOf_decs_terminating {w : Width} {b : Byte} (hb : b.toNat < 128) (s : State) :
    byteStepOf .decs w b s = .next
      (if fitsS w (sextAcc s.acc (s.gidx.toNat + 1)) then
        s.finishDecode (signedResult w (sextAcc s.acc (s.gidx.toNat + 1))) (s.gidx + 1)
      else s.raiseOverflow) := by
  have hc := (contBit_eq_false_iff b).2 hb
  simp only [byteStepOf, reduceCtorEq, if_false, decsByte, hc, Bool.false_eq_true]
  split <;> rfl

/-- RESULT of DECS, read at W bits or at 128, is one number (42 R175). -/
theorem signedResult_setWidth_toInt (w : Width) (x : Acc) :
    ((signedResult w x).setWidth w.bits).toInt = (signedResult w x).toInt := by
  rw [signedResult, setWidth_signExtend_of_le w.bits_le, BitVec.toInt_signExtend_of_le w.bits_le]

end Sys2Proof.Machine
end

section
/-! PROOFS. A whole decode as a run: its acceptance, the groups that continue, and the answer that ends it
(20_memory.md R57, R58; 41_uleb128_decoder.md R131 to R138; 42_sleb128.md R171 to R179). -/

namespace Sys2Proof.Machine

theorem core_run_fault {s : State} {r : Fault} (h : step s = .fault r) (k : Nat) :
    Sys2Proof.core.run (k + 1) s = .fault r := by
  simp only [Host.Core.run, show Sys2Proof.core.step s = .fault r from h]

theorem core_run_refused {s : State} {r : Refusal} (h : step s = .refused r) (k : Nat) :
    Sys2Proof.core.run (k + 1) s = .refused r := by
  simp only [Host.Core.run, show Sys2Proof.core.step s = .refused r from h]

/-- One step more, at the end of a run. -/
theorem core_run_snoc {k : Nat} {s t : State} (h : Sys2Proof.core.run k s = .next t) :
    Sys2Proof.core.run (k + 1) s = step t := by
  induction k generalizing s with
  | zero =>
    obtain rfl : s = t := Host.Outcome.next.inj h
    cases hs : step s with
    | next u => exact core_run_succ hs
    | fault r => exact core_run_fault hs 0
    | refused r => exact core_run_refused hs 0
  | succ k ih =>
    cases hs : step s with
    | next u =>
      rw [core_run_succ hs] at h ⊢
      exact ih h
    | fault r => cases (core_run_fault hs k).symm.trans h
    | refused r => cases (core_run_refused hs k).symm.trans h

/-! ### One read step -/

theorem readGroup_byte {s : State} {b : Byte} {more : List SrcAnswer} (h : s.src.listed = .byte b :: more)
    (f : Byte → State → Result) :
    readGroup f s = f b { s with
      src := { s.src with listed := more, pos := s.src.pos + 1 }
      acc := accWrite s.acc s.gidx.toNat (payload b) } := by
  rw [readGroup, srcNext_listed h]
  rfl

theorem readGroup_endOfInput {s : State} {more : List SrcAnswer} (h : s.src.listed = .endOfInput :: more)
    (f : Byte → State → Result) :
    readGroup f s = .next ({ s with src := { s.src with listed := more } } : State).raiseTruncated := by
  rw [readGroup, srcNext_listed h]
  rfl

/-! ### The states of a decode -/

/-- The host has the command of operation `o` at width `w` to issue, and nothing else. -/
def State.issued (o : Op) (w : Width) (x : Operand) (s : State) : State :=
  { s with host := [.issue (commandWord o w) x] }

/-- The state once decoder `o` at width `w`, issued in `s`, has placed the groups of `bytes` and goes on; the source has
`more` to come. -/
def State.afterGroups (o : Op) (w : Width) (bytes : List Byte) (more : List SrcAnswer) (s : State) : State :=
  { s with
    seq := .reading
    opr := o
    wr := w
    gidx := BitVec.ofNat 5 bytes.length
    acc := accOf bytes
    src := { s.src with listed := more, pos := s.src.pos + bytes.length }
    host := [] }

/-- The state in which the last byte of `bytes` is judged: its payload is placed, GIDX still its index. -/
def State.judging (o : Op) (w : Width) (bytes : List Byte) (more : List SrcAnswer) (s : State) : State :=
  { s.afterGroups o w bytes more with gidx := BitVec.ofNat 5 (bytes.length - 1) }

section
variable {o : Op} {w : Width} {x : Operand} {s : State} {bs : List Byte} {b : Byte} {more : List SrcAnswer}

theorem State.afterGroups_gidx (hlen : bs.length < w.groups) : (s.afterGroups o w bs more).gidx.toNat = bs.length := by
  have := w.groups_le
  exact Nat.mod_eq_of_lt (by omega)

theorem State.judging_gidx (hlen : bs.length < w.groups) :
    (s.judging o w (bs ++ [b]) more).gidx.toNat = bs.length := by
  have := w.groups_le
  simp only [State.judging, List.length_append, List.length_singleton, Nat.add_sub_cancel, BitVec.toNat_ofNat]
  omega

theorem State.judging_acc_toNat (hlen : bs.length < w.groups) :
    (s.judging o w (bs ++ [b]) more).acc.toNat = groupsValue (bs ++ [b]) := by
  have := w.groups_le
  exact accOf_toNat (by simp; omega)

/-- With the next group the judged byte is one more that has been read. -/
theorem State.judging_goesOn :
    { s.judging o w (bs ++ [b]) more with gidx := (s.judging o w (bs ++ [b]) more).gidx + 1 } =
      s.afterGroups o w (bs ++ [b]) more := by
  have hsucc : BitVec.ofNat 5 bs.length + 1#5 = BitVec.ofNat 5 (bs.length + 1) := (BitVec.ofNat_add ..).symm
  simp [State.judging, State.afterGroups, hsucc]

/-- While a decode goes on, its step is the read step. -/
theorem step_afterGroups (ho : o.isEncoder = false) :
    step (s.afterGroups o w bs more) = readGroup (byteStepOf o w) (s.afterGroups o w bs more) := by
  have hr : (s.afterGroups o w bs more).isRunning o w = true :=
    (State.isRunning_iff ..).2 ⟨(runningSeq_decoder ho).symm, rfl, rfl⟩
  rw [step_groupStep hr rfl, groupStepOf_decoder ho]

/-- A byte to come is placed and judged. -/
theorem step_afterGroups_byte (ho : o.isEncoder = false) (hlen : bs.length < w.groups) :
    step (s.afterGroups o w bs (.byte b :: more)) = byteStepOf o w b (s.judging o w (bs ++ [b]) more) := by
  have hacc := accWrite_accOf (hlen.trans_le (w.groups_le.trans (by decide))) b
  rw [step_afterGroups ho, readGroup_byte rfl, State.afterGroups_gidx hlen]
  simp [State.judging, State.afterGroups, hacc, Nat.add_assoc]

/-- The acceptance of a decoder: no group has been read. -/
theorem step_issued (ho : o.isEncoder = false) (hb : s.seq.busy = false) (hown : s.ownsStreams = true) :
    step (s.issued o w x) = .next (s.afterGroups o w [] s.src.listed) := by
  rw [step_accepts (s := s.issued o w x) hb hown rfl]
  cases o with
  | encu => cases ho
  | encs => cases ho
  | decu => rfl
  | decs => rfl

/-- Below the group bound a decode reads every byte that continues, and goes on. -/
theorem run_issued_continues (ho : o.isEncoder = false) (hb : s.seq.busy = false) (hown : s.ownsStreams = true)
    (hbs : allContinue bs) (hlen : bs.length < w.groups) (hsrc : s.src.listed = bs.map .byte ++ more) :
    Sys2Proof.core.run (1 + bs.length) (s.issued o w x) = .next (s.afterGroups o w bs more) := by
  induction bs using List.reverseRecOn generalizing more with
  | nil => rw [← show s.src.listed = more from hsrc]; exact core_run_succ (step_issued ho hb hown)
  | append_singleton bs b ih =>
    obtain ⟨hbs, hb128⟩ := allContinue_append_singleton.1 hbs
    rw [List.length_append, List.length_singleton] at hlen ⊢
    have hread := ih hbs (by omega) (more := .byte b :: more) (by simpa using hsrc)
    have hgidx := State.judging_gidx (o := o) (s := s) (b := b) (more := more) (show bs.length < w.groups by omega)
    have hjudged : byteStepOf o w b (s.judging o w (bs ++ [b]) more) = .next (s.afterGroups o w (bs ++ [b]) more) := by
      rw [byteStepOf_continues hb128, State.judging_goesOn]
      · omega
      · rw [hgidx, State.judging_acc_toNat (by omega)]
        simpa using groupsValue_lt (bs ++ [b])
    exact (core_run_snoc hread).trans ((step_afterGroups_byte ho (by omega)).trans hjudged)

/-- What a decode does with the groups of a sequence, all but the last of which continue, is what it does with
the last byte. -/
theorem run_issued_lastByte (ho : o.isEncoder = false) (hb : s.seq.busy = false) (hown : s.ownsStreams = true)
    (hbs : allContinue bs) (hlen : bs.length < w.groups) (hsrc : s.src.listed = (bs ++ [b]).map .byte ++ more) :
    Sys2Proof.core.run (1 + (bs ++ [b]).length) (s.issued o w x) =
      byteStepOf o w b (s.judging o w (bs ++ [b]) more) := by
  have hread := run_issued_continues (x := x) (more := .byte b :: more) ho hb hown hbs hlen (by simpa using hsrc)
  rw [List.length_append, List.length_singleton, ← Nat.add_assoc, core_run_snoc hread,
    step_afterGroups_byte ho hlen]

/-! ### The last byte -/

/-- COUNT of a decode that ends is the number of bytes. -/
theorem State.judging_count (hlen : bs.length < w.groups) :
    ((s.judging o w (bs ++ [b]) more).gidx + 1).toNat = (bs ++ [b]).length := by
  have hgidx := State.judging_gidx (o := o) (s := s) (b := b) (more := more) hlen
  rw [gidx_succ_toNat (hgidx ▸ hlen), hgidx, List.length_append, List.length_singleton]

/-- The value DECS judges is that of the sequence. -/
theorem State.judging_sextAcc (hlen : bs.length < w.groups) :
    (sextAcc (s.judging .decs w (bs ++ [b]) more).acc
      ((s.judging .decs w (bs ++ [b]) more).gidx.toNat + 1)).toInt = groupsSigned (bs ++ [b]) := by
  have hle := w.groups_le
  have hsext := sextAcc_accOf (bytes := bs ++ [b]) (by simp) (by simp; omega)
  rw [List.length_append, List.length_singleton] at hsext
  rw [State.judging_gidx hlen]
  exact hsext

theorem State.judging_fitsS_iff (hlen : bs.length < w.groups) :
    fitsS w (sextAcc (s.judging .decs w (bs ++ [b]) more).acc
        ((s.judging .decs w (bs ++ [b]) more).gidx.toNat + 1)) = true ↔
      -(2 ^ (w.bits - 1) : Int) ≤ groupsSigned (bs ++ [b]) ∧ groupsSigned (bs ++ [b]) < 2 ^ (w.bits - 1) := by
  rw [fitsS_iff, State.judging_sextAcc hlen]

/-- A sequence that ends in a terminating byte does not continue throughout. -/
theorem not_allContinue_of_last (hb : b.toNat < 128) : ¬ allContinue (bs ++ [b]) :=
  fun h => Nat.not_le.2 hb (allContinue_append_singleton.1 h).2

/-- A full-length sequence, all but its last byte continuing, on whose last byte the decoder overflows. -/
theorem overflow_of_lastByte {bytes : List Byte} (ho : o.isEncoder = false) (hb : s.seq.busy = false)
    (hown : s.ownsStreams = true) (hsrc : s.src.listed = bytes.map .byte ++ more)
    (hlen : bytes.length = w.groups) (hcont : allContinue bytes.dropLast)
    (hlast : ∀ bs b, bytes = bs ++ [b] → b.toNat < 128 → bs.length < w.groups →
      byteStepOf o w b (s.judging o w bytes more) = .next (s.judging o w bytes more).raiseOverflow) :
    ∃ t : State, Sys2Proof.core.run (1 + w.groups) (s.issued o w x) = .next t ∧
      t.seq = .error ∧ t.status = .overflow ∧ t.result = s.result ∧ t.count = s.count ∧
      t.src.listed = more ∧ t.src.pos = s.src.pos + w.groups := by
  have hpos := w.groups_spec.2.2
  obtain ⟨bs, b, rfl⟩ : ∃ bs b, bytes = bs ++ [b] :=
    ⟨_, _, (List.dropLast_append_getLast (List.ne_nil_of_length_pos (by omega))).symm⟩
  rw [List.dropLast_concat] at hcont
  have hbslen : bs.length + 1 = w.groups := by simpa using hlen
  have hover : byteStepOf o w b (s.judging o w (bs ++ [b]) more) =
      .next (s.judging o w (bs ++ [b]) more).raiseOverflow := by
    by_cases hb128 : 128 ≤ b.toNat
    · exact byteStepOf_overflows_at_bound hb128 (by rw [State.judging_gidx (by omega), hbslen])
    · exact hlast bs b rfl (by omega) (by omega)
  rw [← hlen, run_issued_lastByte ho hb hown hcont (by omega) hsrc, hover]
  exact ⟨_, rfl, rfl, rfl, rfl, rfl, rfl, rfl⟩

end

/-! ### The whole decodes -/

/-- Settles O51: the run is that of the last byte, which ends it since ACC, the value of the sequence, is below 2^W. -/
theorem decuDecodesWhatFits : Obligations.DecuDecodesWhatFits := by
  intro w x s bytes more hb hown hsrc hwf hlen hfits
  obtain ⟨bs, b, rfl, hbs, hb128⟩ := (groupsWf_iff bytes).1 hwf
  have hbslen : bs.length < w.groups := by simpa using hlen
  have hacc := State.judging_acc_toNat (o := .decu) (s := s) (b := b) (more := more) hbslen
  refine ⟨_, (run_issued_lastByte rfl hb hown hbs hbslen hsrc).trans (byteStepOf_decu_ends hb128 (hacc ▸ hfits)),
    rfl, rfl, ?result, State.judging_count hbslen, rfl, rfl, rfl⟩
  case result =>
    rw [State.finishDecode_result, unsignedResult_toNat, hacc, Nat.mod_eq_of_lt hfits]

/-- Settles O52: likewise, ACC's sign extension the value of the sequence. -/
theorem decsDecodesWhatFits : Obligations.DecsDecodesWhatFits := by
  intro w x s bytes more hb hown hsrc hwf hlen hlo hhi
  obtain ⟨bs, b, rfl, hbs, hb128⟩ := (groupsWf_iff bytes).1 hwf
  have hbslen : bs.length < w.groups := by simpa using hlen
  have hfits := (State.judging_fitsS_iff (s := s) (more := more) hbslen).2 ⟨hlo, hhi⟩
  have hresult := (signedResult_toInt w _ hfits).trans (State.judging_sextAcc hbslen)
  have hrun := run_issued_lastByte (o := .decs) (x := x) rfl hb hown hbs hbslen hsrc
  rw [byteStepOf_decs_terminating hb128, if_pos hfits] at hrun
  exact ⟨_, hrun, rfl, rfl, hresult, State.judging_count hbslen, (signedResult_setWidth_toInt w _).trans hresult,
    rfl, rfl, rfl⟩

/-- Settles O53: on a terminating byte the payload test fires, ACC being the value of the sequence. -/
theorem decuOverflowsAtTheBound : Obligations.DecuOverflowsAtTheBound := by
  intro w x s bytes more hb hown hsrc hlen hcont hcause
  refine overflow_of_lastByte rfl hb hown hsrc hlen hcont ?_
  rintro bs b rfl hb128 hbslen
  have hvalue := hcause.resolve_left (not_allContinue_of_last hb128)
  exact byteStepOf_decu_overflows (State.judging_acc_toNat hbslen ▸ hvalue)

/-- Settles O54: on a terminating byte the detector fires, ACC's sign extension being the value of the sequence. -/
theorem decsOverflowsAtTheBound : Obligations.DecsOverflowsAtTheBound := by
  intro w x s bytes more hb hown hsrc hlen hcont hcause
  refine overflow_of_lastByte rfl hb hown hsrc hlen hcont ?_
  rintro bs b rfl hb128 hbslen
  have hvalue := hcause.resolve_left (not_allContinue_of_last hb128)
  rw [byteStepOf_decs_terminating hb128, if_neg]
  rw [State.judging_fitsS_iff hbslen]
  omega

/-- Settles O55: the bytes are read and the decode goes on, then End ends it. -/
theorem decodeOfACutSequenceIsTruncated : Obligations.DecodeOfACutSequenceIsTruncated := by
  intro o w x s bytes more ho hb hown hsrc hlen hcont
  have hread := run_issued_continues (x := x) ho hb hown hcont hlen hsrc
  have hend : Sys2Proof.core.run (2 + bytes.length) (s.issued o w x) =
      .next (s.afterGroups o w bytes more).raiseTruncated := by
    rw [show 2 + bytes.length = 1 + bytes.length + 1 by omega, core_run_snoc hread, step_afterGroups ho,
      readGroup_endOfInput rfl]
    rfl
  exact ⟨_, hend, rfl, rfl, rfl, rfl, rfl, rfl⟩

end Sys2Proof.Machine
end

section
/-! PROOFS. The decoder of the block with all five widths, and the `Issue` of a reserved word (30_encoding.md R74 to
R79). -/

namespace Sys2Proof

theorem mem_params_widths (w : Width) : w ∈ Config.params.widths := by cases w <;> decide

theorem decodeWord_commandWord (o : Op) (w : Width) (x : Operand) :
    decodeWord (commandWord o w) x = .ok (.of o w x) :=
  decodeIn_commandWord_built (mem_params_widths w) o x

/-- Settles O1: `decodeIn_eq_ok_iff`, every width being built. -/
theorem decodeAndEncodeAgree : Obligations.DecodeAndEncodeAgree := by
  intro cmd x i
  rw [decodeWord, decodeIn_eq_ok_iff]
  exact and_iff_right (mem_params_widths i.width)

/-- Settles O2: each word of the map is the command word of its operation and width. -/
theorem opcodeMapDecodes : Obligations.OpcodeMapDecodes := by
  intro x
  have h (o : Op) (w : Width) := decodeWord_commandWord o w x
  refine ⟨?encu, ?encs, ?decu, ?decs⟩
  case encu => exact ⟨h .encu .w8, h .encu .w16, h .encu .w32, h .encu .w64, h .encu .w128⟩
  case encs => exact ⟨h .encs .w8, h .encs .w16, h .encs .w32, h .encs .w64, h .encs .w128⟩
  case decu => exact ⟨h .decu .w8, h .decu .w16, h .decu .w32, h .decu .w64, h .decu .w128⟩
  case decs => exact ⟨h .decs .w8, h .decs .w16, h .decs .w32, h .decs .w64, h .decs .w128⟩

/-- With every width built, the words that spell no command are R79's. -/
theorem decodeWord_error_iff (cmd : Command) (x : Operand) :
    (∃ why, decodeWord cmd x = .error why) ↔ (5 ≤ cmd.toNat / 4 % 8 ∨ cmd.toNat / 32 ≠ 0) := by
  refine ⟨fun ⟨why, he⟩ => (reserved_iff_fields cmd).2 ?_, decodeIn_reserved Config.params x⟩
  rcases commandWord_cases cmd with hr | ⟨-, hw⟩ | ⟨o, w, rfl⟩
  · exact .inr hr
  · exact .inl hw
  · rw [decodeWord_commandWord] at he; cases he

theorem issue_undecoded {cmd : Command} {x : Operand} {why : Reserved} (h : decodeWord cmd x = .error why)
    (s : Machine.State) : Machine.issue cmd x s = .refused (.reservedWord cmd why) := by
  simp [Machine.issue, h]

/-- Settles O3: `decodeWord_error_iff`, the count over the 256 words, and the step that takes the `Issue`. -/
theorem reservedWordsAreRefused : Obligations.ReservedWordsAreRefused := by
  refine ⟨decodeWord_error_iff, ?count, ?refused⟩
  case count => rfl
  case refused =>
    intro s cmd x more hb hh hres
    obtain ⟨why, he⟩ := (decodeWord_error_iff cmd x).2 hres
    exact ⟨why, (Machine.step_host hh (.inr hb)).trans (issue_undecoded he _)⟩

end Sys2Proof
end

section
/-! PROOFS. The assembler (30_encoding.md R81): when a line assembles, and the number its operand is. -/

namespace Sys2Proof

/-! ### When a line assembles -/

theorem assemble_wf {l : AsmLine} (h : l.wf = true) : assemble l = some (encode l.command) := if_pos h

theorem assemble_outOfRange {l : AsmLine} (h : ¬ l.wf = true) : assemble l = none := if_neg h

theorem wf_encu_dec (w : Width) (v : Int) : (AsmLine.encu w (.dec v)).wf = true ↔ 0 ≤ v ∧ v < 2 ^ w.bits := by
  simp [AsmLine.wf, Literal.inUnsignedRange]

theorem wf_encu_hex (w : Width) (n : Nat) : (AsmLine.encu w (.hex n)).wf = true ↔ n < 2 ^ w.bits := by
  simp [AsmLine.wf, Literal.inUnsignedRange]

theorem wf_encs_dec (w : Width) (v : Int) :
    (AsmLine.encs w (.dec v)).wf = true ↔ -(2 ^ (w.bits - 1) : Int) ≤ v ∧ v < 2 ^ (w.bits - 1) := by
  simp [AsmLine.wf, Literal.inSignedRange]

theorem wf_encs_hex (w : Width) (n : Nat) : (AsmLine.encs w (.hex n)).wf = true ↔ n < 2 ^ w.bits := by
  simp [AsmLine.wf, Literal.inSignedRange]

theorem assemble_encu {w : Width} {v : Literal} (h : (AsmLine.encu w v).wf = true) :
    assemble (.encu w v) = some (commandWord .encu w, v.unsignedOperand) := by
  rw [assemble_wf h, AsmLine.command, encode_of]

theorem assemble_encs {w : Width} {v : Literal} (h : (AsmLine.encs w v).wf = true) :
    assemble (.encs w v) = some (commandWord .encs w, v.signedOperand w) := by
  rw [assemble_wf h, AsmLine.command, encode_of]

theorem assemble_decu (w : Width) : assemble (.decu w) = some (commandWord .decu w, 0) := by
  rw [assemble_wf rfl, AsmLine.command, encode_of]

theorem assemble_decs (w : Width) : assemble (.decs w) = some (commandWord .decs w, 0) := by
  rw [assemble_wf rfl, AsmLine.command, encode_of]

/-! ### The operand as a number -/

theorem Width.two_pow_bits_le (w : Width) : 2 ^ w.bits ≤ 2 ^ 128 := Nat.pow_le_pow_right (by decide) w.bits_le

theorem unsignedOperand_dec_toNat {w : Width} {v : Int} (h0 : 0 ≤ v) (hv : v < 2 ^ w.bits) :
    ((Literal.dec v).unsignedOperand.toNat : Int) = v := by
  have hw : (2 : Int) ^ w.bits ≤ 2 ^ 128 := mod_cast w.two_pow_bits_le
  rw [Literal.unsignedOperand, BitVec.toNat_ofInt]
  omega

theorem unsignedOperand_hex_toNat {w : Width} {n : Nat} (h : n < 2 ^ w.bits) :
    (Literal.hex n).unsignedOperand.toNat = n :=
  (BitVec.toNat_ofNat n 128).trans (Nat.mod_eq_of_lt (h.trans_le w.two_pow_bits_le))

theorem signedOperand_dec_toInt {w : Width} {v : Int} (hlo : -(2 ^ (w.bits - 1) : Int) ≤ v)
    (hhi : v < 2 ^ (w.bits - 1)) : ((Literal.dec v).signedOperand w).toInt = v := by
  have hw : (2 : Int) ^ (w.bits - 1) ≤ 2 ^ 127 := pow_le_pow_right₀ (by decide) (Nat.sub_le_sub_right w.bits_le 1)
  rw [Literal.signedOperand, BitVec.toInt_ofInt, Int.bmod_def]
  omega

theorem signedOperand_hex_toInt (w : Width) (n : Nat) :
    ((Literal.hex n).signedOperand w).toInt = (BitVec.ofNat w.bits n).toInt :=
  BitVec.toInt_signExtend_of_le w.bits_le

/-- Settles O6: in its range a line assembles and its operand is the value; out of it, it does not assemble. -/
theorem assemblerEmitsTheValueOrNothing : Obligations.AssemblerEmitsTheValueOrNothing := by
  refine ⟨?encuDec, ?encuDecOut, ?encuHex, ?encsDec, ?encsDecOut, ?encsHex, ?hexOut, ?decoders⟩
  case encuDec =>
    exact fun w v h0 hv => ⟨_, assemble_encu ((wf_encu_dec w v).2 ⟨h0, hv⟩), unsignedOperand_dec_toNat h0 hv⟩
  case encuDecOut => exact fun w v h => assemble_outOfRange (by rw [wf_encu_dec]; omega)
  case encuHex => exact fun w n h => ⟨_, assemble_encu ((wf_encu_hex w n).2 h), unsignedOperand_hex_toNat h⟩
  case encsDec =>
    exact fun w v hlo hhi => ⟨_, assemble_encs ((wf_encs_dec w v).2 ⟨hlo, hhi⟩), signedOperand_dec_toInt hlo hhi⟩
  case encsDecOut => exact fun w v h => assemble_outOfRange (by rw [wf_encs_dec]; omega)
  case encsHex => exact fun w n h => ⟨_, assemble_encs ((wf_encs_hex w n).2 h), signedOperand_hex_toInt w n⟩
  case hexOut =>
    exact fun w n h => ⟨assemble_outOfRange (by rw [wf_encu_hex]; omega),
      assemble_outOfRange (by rw [wf_encs_hex]; omega)⟩
  case decoders => exact fun w => ⟨⟨0, assemble_decu w⟩, ⟨0, assemble_decs w⟩⟩

end Sys2Proof
end

section
/-! PROOFS. The part of the operand a command sees (30_encoding.md R76): its acceptance alone, and there an encoder's
low W bits. -/

namespace Sys2Proof.Machine

theorem setWidth_eq_of_lowBits {n : Nat} {x y : Operand} (h : ∀ i, i < n → x.getLsbD i = y.getLsbD i) :
    x.setWidth n = y.setWidth n :=
  BitVec.eq_of_getLsbD_eq fun i hi => by rw [BitVec.getLsbD_setWidth, BitVec.getLsbD_setWidth, h i hi]

/-- Operands an operation cannot tell apart start the same command. -/
theorem State.start_operand_congr {o : Op} {w : Width} {x y : Operand}
    (h : o.isEncoder = true → ∀ i, i < w.bits → x.getLsbD i = y.getLsbD i) (s : State) :
    s.start o w x = s.start o w y := by
  cases o with
  | encu => rw [State.start, State.start, zextOperand, zextOperand, setWidth_eq_of_lowBits (h rfl)]
  | encs => rw [State.start, State.start, sextOperand, sextOperand, setWidth_eq_of_lowBits (h rfl)]
  | decu => rfl
  | decs => rfl

/-- Settles O22: only the acceptance has the operand, and it is `start` of it. -/
theorem operandBitsAboveWidthAreIgnored : Obligations.OperandBitsAboveWidthAreIgnored := by
  intro o w x y s h
  simp only [exec_of, command, accept, State.start_operand_congr h]

end Sys2Proof.Machine
end

section
/-! PROOFS. An encoder's group step by the answer to its put, and the ways a command ends (40_uleb128_encoder.md R101 to
R106, 60_exceptions.md R201 to R203). -/

namespace Sys2Proof.Machine

/-! ### The group step by the answer -/

/-- What REM holds after the group of an encoder (40 R101, 42 R161). -/
def shiftedRem (o : Op) (r : Operand) : Operand := if o = .encu then shiftUnsigned r else shiftSigned r

/-- Whether the group an encoder takes from REM is its last one (40 R101, 42 R161). -/
def lastGroup (o : Op) (r : Operand) : Bool :=
  if o = .encu then encuLast (shiftUnsigned r) else encsLast (shiftSigned r) (lowGroup r)

/-- The byte of the group an encoder takes from REM (40 R101, 42 R161). -/
def emittedByte (o : Op) (r : Operand) : Byte := if o = .encu then encuByte r else encsByte r

theorem groupStepOf_encoder_eq {o : Op} (ho : o.isEncoder = true) (w : Width) (s : State) :
    groupStepOf o w s = emitGroup (shiftedRem o s.rem) (lastGroup o s.rem) (emittedByte o s.rem) s := by
  cases o with
  | encu => rfl
  | encs => rfl
  | decu => cases ho
  | decs => cases ho

/-- The step of a running encoder, whatever operand its command had. -/
theorem exec_encoding {o : Op} {w : Width} {s : State} (ho : o.isEncoder = true) (hq : s.seq = .encoding)
    (hopr : s.opr = o) (hwr : s.wr = w) (x : Operand) :
    exec (.of o w x) s = emitGroup (shiftedRem o s.rem) (lastGroup o s.rem) (emittedByte o s.rem) s := by
  have hr : s.isRunning o w = true := (State.isRunning_iff ..).2 ⟨hq.trans (runningSeq_encoder ho).symm, hopr, hwr⟩
  rw [exec_of, command_running hr, groupStepOf_encoder_eq ho]

section
variable {r : Operand} {last : Bool} {b : Byte} {s t : State}

/-- A put that is accepted is the end of the command after the last byte, and else the next group. -/
theorem emitGroup_accepted (h : snkPut b { s with rem := r } = some (.ok, t)) :
    emitGroup r last b s = .next
      (if last then ({ t with gidx := s.gidx + 1 } : State).finishEncode (s.gidx + 1)
      else { t with gidx := s.gidx + 1 }) := by
  obtain ⟨snk, d, rfl, -⟩ := snkPut_frame h
  rw [emitGroup, h]
  cases last <;> rfl

/-- A put that fails ends the command. -/
theorem emitGroup_failed {info : IoInfo} (h : snkPut b { s with rem := r } = some (.fail info, t)) :
    emitGroup r last b s = .next (t.raiseIoFailure .snk info) := by
  rw [emitGroup, h]

end

theorem encuByte_eq (r : Operand) :
    encuByte r = BitVec.ofNat 8 (r.toNat % 128 + if r.toNat < 128 then 0 else 128) := by
  rw [← encuByte_toNat, BitVec.ofNat_toNat, BitVec.setWidth_eq]

theorem shiftUnsigned_eq (r : Operand) : shiftUnsigned r = BitVec.ofNat 128 (r.toNat / 128) := by
  rw [← shiftUnsigned_toNat, BitVec.ofNat_toNat, BitVec.setWidth_eq]

/-- Settles O26: the byte and the shift as numbers, then the group step by the answer. -/
theorem encuGroupStep_spec : Obligations.EncuGroupStep := by
  rintro w x s hq hopr hwr _ _ rfl rfl
  rw [← encuByte_eq, ← shiftUnsigned_eq, exec_encoding rfl hq hopr hwr]
  refine ⟨?accepted, ?failed, ?frame⟩
  case accepted =>
    intro t hput
    refine (emitGroup_accepted hput).trans ?_
    simp only [lastGroup, if_true, encuLast_iff, State.finishEncode]
  case failed => exact fun info t hput => emitGroup_failed hput
  case frame =>
    intro a t hput
    obtain ⟨snk, d, rfl, -⟩ := snkPut_frame hput
    rfl

/-- Settles O28: the failed put has the sink's frame, and in ERROR the core waits. -/
theorem sinkFailureEndsTheEncode : Obligations.SinkFailureEndsTheEncode := by
  intro w x s u info hq hwr hput
  obtain ⟨ho, hput⟩ : s.opr.isEncoder = true ∧
      snkPut (emittedByte s.opr s.rem) { s with rem := shiftedRem s.opr s.rem } = some (.fail info, u) := by
    rcases hput with ⟨ho, h⟩ | ⟨ho, h⟩ <;>
      exact ⟨by rw [ho]; rfl, by simpa [emittedByte, shiftedRem, ho] using h⟩
  have hstep := (exec_encoding ho hq rfl hwr x).trans (emitGroup_failed hput)
  obtain ⟨snk, d, rfl, -, hkept⟩ := snkPut_frame hput
  exact ⟨_, hstep, rfl, rfl, rfl, hkept, coreStep_waiting rfl⟩

/-! ### The errors of a command -/

/-- Settles O42: of what a command's step can do, only the group step's failures enter ERROR. -/
theorem errorsByCommand : Obligations.ErrorsByCommand := by
  intro i s t h herr
  rw [← Instr.of_fields i] at h
  rcases exec_of_next h with ⟨-, rfl⟩ | ⟨hr, hg⟩ | ⟨hb, -, rfl⟩
  · rw [State.start_seq] at herr
    cases herr ▸ runningSeq_busy i.op
  · have hq := State.isRunning_seq hr
    cases ho : i.op.isEncoder with
    | true =>
      rw [runningSeq_encoder ho] at hq
      rw [groupStepOf_encoder_eq ho] at hg
      obtain ⟨snk, d, u, rfl, ⟨info, kept, -, -, rfl⟩ | ⟨-, -, rfl⟩ | ⟨-, -, rfl⟩⟩ := emitGroup_outcome hg
      · exact ⟨fun _ => ⟨rfl, rfl⟩, nofun⟩
      · cases herr
      · cases hq.symm.trans herr
    | false =>
      refine ⟨nofun, fun _ hio => ?_⟩
      obtain ⟨a, d, u, rfl, ⟨-, rfl⟩ | ⟨info, -, rfl⟩ | ⟨b, v, -, rfl, rfl | ⟨-, rfl⟩ | rfl⟩⟩ :=
        groupStepOf_decoder_next ho hg
      · cases hio
      · rfl
      · cases hio
      · rw [runningSeq_decoder ho] at hq
        cases hq.symm.trans herr
      · cases herr
  · rw [herr] at hb
    cases hb

/-! ### The bytes in the sink -/

/-- A command's step takes no byte back: an encoder's adds bytes or none, a decoder's leaves the sink as it is. -/
theorem exec_keeps_sink_bytes {i : Instr} {s t : State} (h : exec i s = .next t) : s.snk.bytes <+: t.snk.bytes := by
  rw [← Instr.of_fields i] at h
  cases ho : i.op.isEncoder with
  | true =>
    obtain ⟨-, -, -, -, -, hidle, haccepted, hfailed⟩ := encoderFrame _ _ _ _ _ ho h
    cases hr : s.isRunning i.op i.width with
    | false => rw [hidle hr]
    | true =>
      by_cases herr : t.seq = .error
      · obtain ⟨kept, -, hbytes⟩ := hfailed herr
        exact hbytes ▸ List.prefix_append ..
      · exact haccepted hr herr ▸ List.prefix_append ..
  | false =>
    obtain ⟨⟨-, hsnk, -⟩, -⟩ := decoderFrame _ _ _ _ _ ho h
    rw [hsnk]

theorem coreStep_keeps_sink_bytes {s t : State} (h : coreStep s = .next t) : s.snk.bytes <+: t.snk.bytes := by
  cases hb : s.seq.busy with
  | true => exact exec_keeps_sink_bytes ((coreStep_busy hb).symm.trans h)
  | false =>
    rw [coreStep_waiting hb] at h
    injection h with h
    rw [h]

/-- A reset inside an encode may still move its pending byte, and takes none back (70_reset_and_hazards.md R232). -/
theorem applyReset_keeps_sink_bytes (s : State) : s.snk.bytes <+: (applyReset s).snk.bytes := by
  have hsnk : (applyReset s).snk = if s.seq.busy then (abandon s).snk else s.snk := by
    unfold applyReset
    split <;> rfl
  rw [hsnk]
  split
  · rcases abandon_cases s with h | ⟨-, h⟩ | ⟨-, h⟩ | ⟨-, h⟩ <;> rw [h]
    exact List.prefix_append ..
  · exact List.prefix_rfl

/-- Of the host's actions only the connection of another sink can take bytes back. -/
theorem hostAct_keeps_sink_bytes {a : HostAction} {s t : State} (ha : ∀ y, a ≠ .connectSink y)
    (h : hostAct a s = .next t) : s.snk.bytes <+: t.snk.bytes := by
  cases a with
  | issue cmd x =>
    cases hd : decodeWord cmd x with
    | ok i => exact exec_keeps_sink_bytes ((issue_decoded hd s).symm.trans h)
    | error why => cases (issue_undecoded hd s).symm.trans h
  | read r =>
    obtain ⟨-, rfl⟩ := readRegister_next h
    exact List.prefix_rfl
  | reset =>
    injection h with h
    exact h ▸ applyReset_keeps_sink_bytes s
  | connectSink y => exact absurd rfl (ha y)
  | connectSource _ | routeSinkToSource =>
    rw [hostAct] at h
    obtain ⟨-, rfl⟩ := changeStreams_next h
    exact List.prefix_rfl
  | letRun => exact coreStep_keeps_sink_bytes h

/-- Settles O44: by what the step is, the core's own or the host's action. -/
theorem sinkKeepsItsBytes : Obligations.SinkKeepsItsBytes := by
  intro s t h hsink
  rcases step_eq s with hcore | ⟨a, more, hh, -, hact⟩
  · exact coreStep_keeps_sink_bytes (hcore.symm.trans h)
  · refine hostAct_keeps_sink_bytes (s := { s with host := more }) ?_ (hact.symm.trans h)
    rintro y rfl
    exact hsink y more hh

end Sys2Proof.Machine
end

section
/-! PROOFS. A whole encode as a run: the bytes an encoder takes from REM, its acceptance and its group steps, and for
ENCU that the bytes are the canonical sequence of the operand (40_uleb128_encoder.md R101 to R105). -/

namespace Sys2Proof.Machine

/-! ### The length of rule R103 -/

theorem two_pow_groups_succ (n : Nat) : 2 ^ (7 * (n + 1)) = 128 * 2 ^ (7 * n) := by
  rw [Nat.mul_succ, Nat.pow_add, Nat.mul_comm]

theorem isUlebLength_one {v : Nat} (h : v < 128) : isUlebLength v 1 :=
  ⟨Nat.le_refl 1, h, fun _ hm _ => hm⟩

/-- What is left after a group is one group shorter. -/
theorem isUlebLength_succ {v n : Nat} (h : 128 ≤ v) (hn : isUlebLength (v / 128) n) : isUlebLength v (n + 1) := by
  obtain ⟨-, hlt, hmin⟩ := hn
  refine ⟨Nat.le_add_left .., ?_, fun m hm hv => ?_⟩
  · rw [two_pow_groups_succ]
    omega
  · obtain ⟨k, rfl⟩ := Nat.exists_eq_add_of_le' hm
    rw [two_pow_groups_succ] at hv
    cases k with
    | zero => omega
    | succ k => exact Nat.succ_le_succ (hmin (k + 1) (Nat.le_add_left ..) (by omega))

/-- A value of W bits takes at most N(W) groups. -/
theorem isUlebLength_le_groups {w : Width} {v n : Nat} (hv : v < 2 ^ w.bits) (h : isUlebLength v n) :
    n ≤ w.groups := by
  obtain ⟨-, -, hmin⟩ := h
  obtain ⟨-, hbits, hpos⟩ := w.groups_spec
  exact hmin w.groups hpos (hv.trans_le (Nat.pow_le_pow_right (by decide) hbits.le))

/-- A sequence of minimal length has no zero byte at its end, but for the one byte of 0: without it the value would be
the same. -/
theorem eq_singleton_of_getLast?_zero {bytes : List Byte} (h : isUlebLength (groupsValue bytes) bytes.length)
    (hlast : bytes.getLast? = some 0) : bytes = [0] := by
  obtain ⟨bs, rfl⟩ := List.getLast?_eq_some_iff.1 hlast
  obtain ⟨-, -, hmin⟩ := h
  have hvalue : groupsValue (bs ++ [0]) = groupsValue bs := by
    simp [groupsValue_append_singleton]
  rw [hvalue, List.length_append, List.length_singleton] at hmin
  cases bs with
  | nil => rfl
  | cons c rest => exact absurd (hmin _ (Nat.le_add_left ..) (groupsValue_lt _)) (Nat.not_succ_le_self _)

/-! ### The bytes of an encode -/

/-- The bytes encoder `o` emits when REM holds `r`: those of its groups up to the last one. -/
inductive Emits (o : Op) : Operand → List Byte → Prop
  | last {r : Operand} (hl : lastGroup o r = true) : Emits o r [emittedByte o r]
  | more {r : Operand} {bs : List Byte} (hl : lastGroup o r = false) (hbs : Emits o (shiftedRem o r) bs) :
      Emits o r (emittedByte o r :: bs)

theorem emittedByte_eq (o : Op) (r : Operand) : emittedByte o r = groupByte (lastGroup o r) (lowGroup r) := by
  unfold emittedByte lastGroup
  split <;> rfl

theorem emittedByte_toNat (o : Op) (r : Operand) :
    (emittedByte o r).toNat = r.toNat % 128 + if lastGroup o r then 0 else 128 := by
  rw [emittedByte_eq, groupByte_toNat, lowGroup_toNat]

theorem emittedByte_payload (o : Op) (r : Operand) : (emittedByte o r).toNat % 128 = r.toNat % 128 := by
  rw [emittedByte_toNat]
  split <;> omega

/-- The last byte has its continuation bit clear, every other has it set. -/
theorem emittedByte_of_lastGroup {o : Op} {r : Operand} (h : lastGroup o r = true) :
    (emittedByte o r).toNat < 128 := by
  rw [emittedByte_toNat, if_pos h]
  omega

theorem emittedByte_of_goesOn {o : Op} {r : Operand} (h : lastGroup o r = false) :
    128 ≤ (emittedByte o r).toNat := by
  rw [emittedByte_toNat, if_neg (by simp [h])]
  omega

/-- The bytes of an encode are one well-formed sequence (30_encoding.md R72). -/
theorem Emits.wellFormed {o : Op} {r : Operand} {bytes : List Byte} (h : Emits o r bytes) : groupsWf bytes := by
  induction h with
  | last hl => exact emittedByte_of_lastGroup hl
  | more hl hbs ih =>
    have hb := emittedByte_of_goesOn hl
    cases hbs with
    | last => exact ⟨hb, ih⟩
    | more => exact ⟨hb, ih⟩

/-! ### The run of an encode -/

/-- The state once an encoder in `s` has emitted `bytes` and goes on with `r` in REM. -/
def State.afterEmit (bytes : List Byte) (r : Operand) (s : State) : State :=
  { s with
    rem := r
    gidx := s.gidx + BitVec.ofNat 5 bytes.length
    snk := { s.snk with bytes := s.snk.bytes ++ bytes } }

theorem State.afterEmit_gidx (bytes : List Byte) (r : Operand) (s : State) :
    (s.afterEmit bytes r).gidx = s.gidx + BitVec.ofNat 5 bytes.length := rfl
@[simp] theorem State.afterEmit_result (bytes : List Byte) (r : Operand) (s : State) :
    (s.afterEmit bytes r).result = s.result := rfl
@[simp] theorem State.afterEmit_src (bytes : List Byte) (r : Operand) (s : State) :
    (s.afterEmit bytes r).src = s.src := rfl
@[simp] theorem State.afterEmit_snk_bytes (bytes : List Byte) (r : Operand) (s : State) :
    (s.afterEmit bytes r).snk.bytes = s.snk.bytes ++ bytes := rfl

/-- From group 0 on, GIDX is the number of bytes emitted. -/
theorem State.afterEmit_gidx_toNat {bytes : List Byte} {s : State} (hg : s.gidx = 0) (hlen : bytes.length ≤ 19)
    (r : Operand) : (s.afterEmit bytes r).gidx.toNat = bytes.length := by
  rw [State.afterEmit_gidx, hg]
  simpa using Nat.mod_eq_of_lt (show bytes.length < 2 ^ 5 by omega)

theorem State.afterEmit_cons (b : Byte) (bs : List Byte) (r q : Operand) (s : State) :
    (s.afterEmit [b] q).afterEmit bs r = s.afterEmit (b :: bs) r := by
  have hgidx : s.gidx + 1#5 + BitVec.ofNat 5 bs.length = s.gidx + BitVec.ofNat 5 (bs.length + 1) := by
    rw [BitVec.add_assoc, Nat.add_comm, BitVec.ofNat_add]
  simp [State.afterEmit, hgidx]

/-- The state once the command of operation `o` at width `w`, issued in `s`, is accepted. -/
def State.accepted (o : Op) (w : Width) (x : Operand) (s : State) : State :=
  ({ s with host := [] } : State).start o w x

section
variable {o : Op} {w : Width} {s : State} {bytes : List Byte}

/-- With a sink that accepts, a running encoder's step emits its byte, and ends after the last one. -/
theorem step_emits (ho : o.isEncoder = true) (hr : s.isRunning o w = true) (hh : s.host = []) (hs : s.sinkAccepts) :
    step s = .next (
      let t := s.afterEmit [emittedByte o s.rem] (shiftedRem o s.rem)
      if lastGroup o s.rem then t.finishEncode t.gidx else t) := by
  obtain ⟨hlisted, hrest⟩ := hs
  rw [step_groupStep hr hh, groupStepOf_encoder_eq ho,
    emitGroup_accepted (snkPut_always (s := { s with rem := shiftedRem o s.rem }) hlisted hrest _)]
  rfl

/-- The run of a running encoder emits its bytes and ends. -/
theorem run_emits (ho : o.isEncoder = true) (hr : s.isRunning o w = true) (hh : s.host = []) (hs : s.sinkAccepts)
    (h : Emits o s.rem bytes) :
    ∃ r, Sys2Proof.core.run bytes.length s =
      .next ((s.afterEmit bytes r).finishEncode (s.afterEmit bytes r).gidx) := by
  generalize hrem : s.rem = r at h
  induction h generalizing s with
  | last hl =>
    subst hrem
    have hstep := step_emits ho hr hh hs
    rw [if_pos hl] at hstep
    exact ⟨_, core_run_succ hstep⟩
  | @more _ bs hl hbs ih =>
    subst hrem
    have hstep := step_emits ho hr hh hs
    rw [if_neg (by simp [hl])] at hstep
    obtain ⟨r, hrun⟩ := ih (s := s.afterEmit [emittedByte o s.rem] (shiftedRem o s.rem)) hr hh hs rfl
    rw [State.afterEmit_cons] at hrun
    exact ⟨r, (core_run_succ hstep).trans hrun⟩

/-- Issued when no command runs, an encoder emits the bytes of its operand and ends in DONE. -/
theorem run_issued_emits {x : Operand} (ho : o.isEncoder = true) (hb : s.seq.busy = false)
    (hown : s.ownsStreams = true) (hs : s.sinkAccepts) (h : Emits o (s.accepted o w x).rem bytes)
    (hlen : bytes.length ≤ w.groups) :
    ∃ t : State, Sys2Proof.core.run (1 + bytes.length) (s.issued o w x) = .next t ∧ t.seq = .done ∧
      t.status = .ok ∧ t.count.toNat = bytes.length ∧ t.snk.bytes = s.snk.bytes ++ bytes ∧ t.result = s.result ∧
      t.src = s.src := by
  have hstep : step (s.issued o w x) = .next (s.accepted o w x) :=
    step_accepts (s := s.issued o w x) hb hown rfl
  have hr : (s.accepted o w x).isRunning o w = true := (State.isRunning_iff ..).2 (by simp [State.accepted])
  have hsink : (s.accepted o w x).sinkAccepts := by simpa [State.accepted, State.sinkAccepts] using hs
  obtain ⟨r, hrun⟩ := run_emits ho hr (State.start_host ..) hsink h
  have hcount := State.afterEmit_gidx_toNat (State.start_gidx o w x { s with host := [] })
    (hlen.trans w.groups_le) r
  rw [Nat.add_comm, core_run_succ hstep]
  exact ⟨_, hrun, rfl, rfl, hcount, by simp [State.accepted], by simp [State.accepted], by simp [State.accepted]⟩

end

/-! ### ENCU -/

theorem lastGroup_encu_iff (r : Operand) : lastGroup .encu r = true ↔ r.toNat < 128 := encuLast_iff r

theorem lastGroup_encu_eq_false_iff (r : Operand) : lastGroup .encu r = false ↔ 128 ≤ r.toNat := by
  rw [← Bool.not_eq_true, lastGroup_encu_iff, Nat.not_lt]

theorem shiftedRem_encu_toNat (r : Operand) : (shiftedRem .encu r).toNat = r.toNat / 128 := shiftUnsigned_toNat r

/-- ENCU ends on every operand: what is left after a group is less. -/
theorem exists_emits_encu (r : Operand) : ∃ bytes, Emits .encu r bytes := by
  cases hl : lastGroup .encu r with
  | true => exact ⟨_, .last hl⟩
  | false =>
    obtain ⟨bs, hbs⟩ := exists_emits_encu (shiftedRem .encu r)
    exact ⟨_, .more hl hbs⟩
termination_by r.toNat
decreasing_by
  rw [lastGroup_encu_eq_false_iff] at hl
  rw [shiftedRem_encu_toNat]
  omega

theorem Emits.encu_value {r : Operand} {bytes : List Byte} (h : Emits .encu r bytes) :
    groupsValue bytes = r.toNat := by
  induction h with
  | @last r hl =>
    rw [groupsValue, groupsValue, emittedByte_payload, Nat.mod_eq_of_lt ((lastGroup_encu_iff r).1 hl),
      Nat.mul_zero, Nat.add_zero]
  | more hl hbs ih =>
    rw [groupsValue, ih, emittedByte_payload, shiftedRem_encu_toNat, Nat.mod_add_div]

theorem Emits.encu_length {r : Operand} {bytes : List Byte} (h : Emits .encu r bytes) :
    isUlebLength r.toNat bytes.length := by
  induction h with
  | @last r hl => exact isUlebLength_one ((lastGroup_encu_iff r).1 hl)
  | @more r _ hl hbs ih =>
    rw [shiftedRem_encu_toNat] at ih
    exact isUlebLength_succ ((lastGroup_encu_eq_false_iff r).1 hl) ih

/-- Settles O49: the bytes of the operand's low W bits have that value and the minimal length, and the run emits
them. -/
theorem encuEmitsTheCanonicalSequence : Obligations.EncuEmitsTheCanonicalSequence := by
  intro w x s hb hown hs
  have hrem : (s.accepted .encu w x).rem.toNat = x.toNat % 2 ^ w.bits := zextOperand_toNat w x
  obtain ⟨bytes, hbytes⟩ := exists_emits_encu (s.accepted .encu w x).rem
  have hvalue := hbytes.encu_value
  have hlength := hbytes.encu_length
  have hgroups : bytes.length ≤ w.groups := isUlebLength_le_groups (zextOperand_lt w x) hlength
  obtain ⟨t, hrun, hend⟩ := run_issued_emits rfl hb hown hs hbytes hgroups
  exact ⟨bytes, t, hrun, hbytes.wellFormed, hvalue.trans hrem, hrem ▸ hlength, hgroups,
    eq_singleton_of_getLast?_zero (hvalue ▸ hlength), hend⟩

end Sys2Proof.Machine
end

section
/-! PROOFS. The value an unsigned encode and decode agree on, DECU's read step as its rules write it, and the answers of
the source that end either decoder (41_uleb128_decoder.md R131 to R141). -/

namespace Sys2Proof.Machine

/-! ### Round trip -/

/-- Settles O56: ENCU emits a well-formed sequence of the operand's value, at most N(W) long, which DECU decodes; what
follows it in the source is not read. -/
theorem unsignedRoundTrip : Obligations.UnsignedRoundTrip := by
  intro w x y s hb hown hs hempty hx
  obtain ⟨bytes, t, hrun, hwf, hvalue, hlength, hgroups, -, hdone, -, hcount, hsink, -, -⟩ :=
    encuEmitsTheCanonicalSequence w x s hb hown hs
  rw [Nat.mod_eq_of_lt hx] at hvalue hlength
  rw [hempty, List.nil_append] at hsink
  refine ⟨bytes.length, t, hrun, hdone, hcount, congrArg List.length hsink, hlength, ?_⟩
  rintro u hub huown ⟨ends, -, hlisted, -⟩
  rw [hsink] at hlisted
  obtain ⟨d, hdecode, hddone, -, hresult, hdcount, -⟩ :=
    decuDecodesWhatFits w y u bytes ends hub huown hlisted hwf hgroups (hvalue ▸ hx)
  exact ⟨d, hdecode, hddone, BitVec.eq_of_toNat_eq (hresult.trans hvalue), hdcount⟩

/-! ### The read step by the answer of the source -/

/-- One read changes nothing but the source and the count of free values. -/
theorem srcNext_frame {s t : State} {a : SrcAnswer} (h : srcNext s = some (a, t)) :
    t = { s with src := t.src, draws := t.draws } := by
  obtain ⟨d, rfl⟩ := srcNext_some h
  rfl

/-- The step of a running decoder, whatever operand its command had. -/
theorem exec_reading {o : Op} {w : Width} {s : State} (ho : o.isEncoder = false) (hr : s.isRunning o w = true)
    (x : Operand) : exec (.of o w x) s = readGroup (byteStepOf o w) s := by
  rw [exec_of, command_running hr, groupStepOf_decoder ho]

section
variable {f : Byte → State → Result} {s t : State}

theorem readGroup_answeredByte {b : Byte} (h : srcNext s = some (.byte b, t)) :
    readGroup f s = f b { t with acc := accWrite s.acc s.gidx.toNat (payload b) } := by
  rw [readGroup, h]
  obtain ⟨d, rfl⟩ := srcNext_some h
  rfl

theorem readGroup_answeredEnd (h : srcNext s = some (.endOfInput, t)) : readGroup f s = .next t.raiseTruncated := by
  rw [readGroup, h]

theorem readGroup_answeredFail {info : IoInfo} (h : srcNext s = some (.fail info, t)) :
    readGroup f s = .next (t.raiseIoFailure .src info) := by
  rw [readGroup, h]

end

/-! ### DECU's byte -/

/-- RESULT of DECU is the value that fits (41 R134). -/
theorem unsignedResult_eq_of_fits {w : Width} {acc : Acc} (h : acc.toNat < 2 ^ w.bits) :
    unsignedResult w acc = BitVec.ofNat 128 acc.toNat := by
  rw [← Nat.mod_eq_of_lt h, ← unsignedResult_toNat, BitVec.ofNat_toNat, BitVec.setWidth_eq]

/-- DECU goes on after a byte that continues before the last group, if the value so far fits (41 R131). -/
theorem byteStepOf_decu_goesOn {w : Width} {b : Byte} {s : State} (hb : 128 ≤ b.toNat) (h : s.acc.toNat < 2 ^ w.bits)
    (hk : s.gidx.toNat + 1 ≠ w.groups) : byteStepOf .decu w b s = .next { s with gidx := s.gidx + 1 } := by
  have hfits := (payloadOverflow_eq_false_iff w s.acc).2 h
  have hbound : ¬ atBound s.gidx.toNat w.groups = true := mt (atBound_iff ..).1 hk
  simp [byteStepOf, decuByte, hfits, (contBit_iff b).2 hb, hbound]

/-- What DECU does with a byte whose payload has been placed, as the rules write it (41 R131 to R134). -/
theorem byteStepOf_decu_eq (w : Width) (b : Byte) (s : State) :
    byteStepOf .decu w b s = .next
      (if 2 ^ w.bits ≤ s.acc.toNat ∨ (128 ≤ b.toNat ∧ s.gidx.toNat + 1 = w.groups) then s.raiseOverflow
      else if 128 ≤ b.toNat then { s with gidx := s.gidx + 1 }
      else s.finishDecode (BitVec.ofNat 128 s.acc.toNat) (s.gidx + 1)) := by
  split_ifs with hover hb
  · rcases hover with hvalue | ⟨hb, hk⟩
    · exact byteStepOf_decu_overflows hvalue
    · exact byteStepOf_overflows_at_bound hb hk
  · obtain ⟨hfits, hk⟩ := not_or.1 hover
    exact byteStepOf_decu_goesOn hb (Nat.not_le.1 hfits) fun hlast => hk ⟨hb, hlast⟩
  · have hfits : s.acc.toNat < 2 ^ w.bits := Nat.not_le.1 (not_or.1 hover).1
    rw [byteStepOf_decu_ends (Nat.not_le.1 hb) hfits, unsignedResult_eq_of_fits hfits]

/-- Settles O30: the read step by the answer, and a byte by `byteStepOf_decu_eq`. -/
theorem decuReadStep : Obligations.DecuReadStep := by
  intro w x s hq hopr hwr
  have hstep := exec_reading rfl ((State.isRunning_iff .decu w s).2 ⟨hq, hopr, hwr⟩) x
  refine ⟨?byte, ?endOfInput, ?failed, fun a t => srcNext_frame⟩
  case byte =>
    rintro t b acc hread rfl
    rw [hstep, readGroup_answeredByte hread, byteStepOf_decu_eq]
    obtain ⟨d, rfl⟩ := srcNext_some hread
    rfl
  case endOfInput => exact fun t hread => hstep.trans (readGroup_answeredEnd hread)
  case failed => exact fun info t hread => hstep.trans (readGroup_answeredFail hread)

/-! ### The last group -/

/-- Above an accumulator that is zero from group k on, DECU's payload test is one on the payload alone: it has a bit
that lands at W or above. -/
theorem payloadOverflow_accWrite_iff {w : Width} {acc : Acc} {k : Nat} (h : acc.toNat < 2 ^ (7 * k))
    (hk : 7 * k < w.bits) (b : Byte) :
    payloadOverflow w (accWrite acc k (payload b)) = true ↔ 2 ^ (w.bits - 7 * k) ≤ b.toNat % 128 := by
  have hk20 : k < 20 := by have := w.bits_le; omega
  have hquot : (acc.toNat + b.toNat % 128 * 2 ^ (7 * k)) / 2 ^ (7 * k) = b.toNat % 128 := by
    rw [Nat.add_mul_div_right _ _ (Nat.two_pow_pos _), Nat.div_eq_of_lt h, Nat.zero_add]
  rw [payloadOverflow_iff, accWrite_toNat hk20 h, payload_toNat, ← Nat.pow_sub_mul_pow 2 hk.le,
    ← Nat.le_div_iff_mul_le (Nat.two_pow_pos _), hquot]

/-- Settles O35: before group N(W)-1 all seven payload bits land below W, and there its low W - 7(N(W)-1) bits do. -/
theorem unsignedLastGroupTable : Obligations.UnsignedLastGroupTable := by
  intro w acc k b hacc
  have hlast := w.groups_spec.1
  refine ⟨fun hk => ?before, fun hk => ?atLast⟩
  case before =>
    have hseven : 2 ^ 7 ≤ 2 ^ (w.bits - 7 * k) := Nat.pow_le_pow_right (by decide) (by omega)
    rw [← Bool.not_eq_true, payloadOverflow_accWrite_iff hacc (by omega)]
    omega
  case atLast =>
    obtain rfl : k = w.groups - 1 := by omega
    have hpos := Nat.two_pow_pos (w.bits - 7 * (w.groups - 1))
    rw [payloadOverflow_accWrite_iff hacc hlast, contBit_iff]
    omega

/-! ### The answers that end a decode -/

/-- Settles O32: End is `raiseTruncated` on what the read left, its position unmoved; in ERROR the core waits. -/
theorem endOfInputIsTruncated : Obligations.EndOfInputIsTruncated := by
  intro o w x s t ho hr hread
  have hstep := (exec_reading ho hr x).trans (readGroup_answeredEnd hread)
  obtain ⟨d, rfl⟩ := srcNext_some hread
  exact ⟨_, hstep, rfl, rfl, rfl, rfl, rfl, coreStep_waiting rfl⟩

/-- Settles O33: likewise for Fail, which is `raiseIoFailure` of the source. -/
theorem sourceFailureEndsTheDecode : Obligations.SourceFailureEndsTheDecode := by
  intro o w x s t info ho hr hread
  have hstep := (exec_reading ho hr x).trans (readGroup_answeredFail hread)
  obtain ⟨d, rfl⟩ := srcNext_some hread
  exact ⟨_, hstep, rfl, rfl, rfl, rfl, coreStep_waiting rfl⟩

end Sys2Proof.Machine
end

section
/-! PROOFS. ENCS: its group step by the answer to its put, the canonical sequence it emits, and the round trip through
DECS (42_sleb128.md R161 to R164, R178). -/

namespace Sys2Proof.Machine

/-! ### The group step -/

theorem encsByte_eq (r : Operand) :
    encsByte r = BitVec.ofNat 8 (r.toNat % 128 + if -64 ≤ r.toInt ∧ r.toInt < 64 then 0 else 128) := by
  rw [← encsByte_toNat, BitVec.ofNat_toNat, BitVec.setWidth_eq]

theorem shiftSigned_eq (r : Operand) : shiftSigned r = BitVec.ofInt 128 (r.toInt / 128) := by
  rw [← shiftSigned_toInt, BitVec.ofInt_toInt]

theorem lastGroup_encs_iff (r : Operand) : lastGroup .encs r = true ↔ -64 ≤ r.toInt ∧ r.toInt < 64 := encsLast_iff r

theorem lastGroup_encs_eq_false_iff (r : Operand) : lastGroup .encs r = false ↔ ¬(-64 ≤ r.toInt ∧ r.toInt < 64) := by
  rw [← Bool.not_eq_true, lastGroup_encs_iff]

theorem shiftedRem_encs_toInt (r : Operand) : (shiftedRem .encs r).toInt = r.toInt / 128 := shiftSigned_toInt r

/-- Settles O27: the byte and the shift as numbers, then the group step by the answer. -/
theorem encsGroupStep_spec : Obligations.EncsGroupStep := by
  rintro w x s hq hopr hwr _ _ rfl rfl
  rw [← encsByte_eq, ← shiftSigned_eq, exec_encoding rfl hq hopr hwr]
  refine ⟨?accepted, ?failed, ?frame⟩
  case accepted =>
    intro t hput
    refine (emitGroup_accepted hput).trans ?_
    simp only [lastGroup_encs_iff, State.finishEncode]
  case failed => exact fun info t hput => emitGroup_failed hput
  case frame =>
    intro a t hput
    obtain ⟨snk, d, rfl, -⟩ := snkPut_frame hput
    rfl

/-! ### The length of rule R163 -/

theorem two_pow_signedGroups_succ {n : Nat} (hn : 1 ≤ n) : (2 : Int) ^ (7 * (n + 1) - 1) = 128 * 2 ^ (7 * n - 1) := by
  rw [show 7 * (n + 1) - 1 = 7 + (7 * n - 1) by omega, pow_add]
  rfl

theorem isSlebLength_one {v : Int} (hlo : -64 ≤ v) (hhi : v < 64) : isSlebLength v 1 :=
  ⟨Nat.le_refl 1, ⟨hlo, hhi⟩, fun _ hm _ _ => hm⟩

/-- What is left after a group is one group shorter. -/
theorem isSlebLength_succ {v : Int} {n : Nat} (h : ¬(-64 ≤ v ∧ v < 64)) (hn : isSlebLength (v / 128) n) :
    isSlebLength v (n + 1) := by
  obtain ⟨hpos, ⟨hlo, hhi⟩, hmin⟩ := hn
  refine ⟨Nat.le_add_left .., ?_, fun m hm hmlo hmhi => ?_⟩
  · rw [two_pow_signedGroups_succ hpos]
    omega
  · obtain ⟨k, rfl⟩ := Nat.exists_eq_add_of_le' hm
    cases k with
    | zero => exact absurd ⟨hmlo, hmhi⟩ h
    | succ k =>
      rw [two_pow_signedGroups_succ (Nat.le_add_left ..)] at hmlo hmhi
      exact Nat.succ_le_succ (hmin (k + 1) (Nat.le_add_left ..) (by omega) (by omega))

/-- A value in the range of W bits takes at most N(W) groups. -/
theorem isSlebLength_le_groups {w : Width} {v : Int} {n : Nat} (hlo : -(2 ^ (w.bits - 1) : Int) ≤ v)
    (hhi : v < 2 ^ (w.bits - 1)) (h : isSlebLength v n) : n ≤ w.groups := by
  obtain ⟨-, -, hmin⟩ := h
  obtain ⟨-, hbits, hpos⟩ := w.groups_spec
  have hpow : (2 : Int) ^ (w.bits - 1) ≤ 2 ^ (7 * w.groups - 1) := pow_le_pow_right₀ (by decide) (by omega)
  exact hmin w.groups hpos (by omega) (by omega)

/-! ### The bytes of ENCS -/

/-- ENCS ends on every operand: what is left after a group is nearer to 0. -/
theorem exists_emits_encs (r : Operand) : ∃ bytes, Emits .encs r bytes := by
  cases hl : lastGroup .encs r with
  | true => exact ⟨_, .last hl⟩
  | false =>
    obtain ⟨bs, hbs⟩ := exists_emits_encs (shiftedRem .encs r)
    exact ⟨_, .more hl hbs⟩
termination_by r.toInt.natAbs
decreasing_by
  rw [lastGroup_encs_eq_false_iff] at hl
  rw [shiftedRem_encs_toInt]
  omega

theorem Emits.ne_nil {o : Op} {r : Operand} {bytes : List Byte} (h : Emits o r bytes) : bytes ≠ [] := by
  cases h <;> exact List.cons_ne_nil _ _

theorem groupsSigned_cons {bs : List Byte} (h : bs ≠ []) (b : Byte) :
    groupsSigned (b :: bs) = ((b.toNat % 128 : Nat) : Int) + 128 * groupsSigned bs := by
  obtain ⟨c, more, rfl⟩ := List.exists_cons_of_ne_nil h
  exact groupsSigned_cons_cons b c more

/-- The last group alone is the value, its bit 6 the sign (30_encoding.md R77). -/
theorem groupsSigned_lastGroup {r : Operand} (hl : lastGroup .encs r = true) :
    groupsSigned [emittedByte .encs r] = r.toInt := by
  obtain ⟨hlo, hhi⟩ := (lastGroup_encs_iff r).1 hl
  have hmod := toNat_mod_128_eq r
  rw [groupsSigned, emittedByte_payload]
  split <;> omega

theorem Emits.encs_value {r : Operand} {bytes : List Byte} (h : Emits .encs r bytes) :
    groupsSigned bytes = r.toInt := by
  induction h with
  | last hl => exact groupsSigned_lastGroup hl
  | more hl hbs ih =>
    rw [groupsSigned_cons hbs.ne_nil, ih, emittedByte_payload, toNat_mod_128_eq, shiftedRem_encs_toInt,
      Int.emod_add_mul_ediv]

theorem Emits.encs_length {r : Operand} {bytes : List Byte} (h : Emits .encs r bytes) :
    isSlebLength r.toInt bytes.length := by
  induction h with
  | @last r hl =>
    obtain ⟨hlo, hhi⟩ := (lastGroup_encs_iff r).1 hl
    exact isSlebLength_one hlo hhi
  | @more r _ hl hbs ih =>
    rw [shiftedRem_encs_toInt] at ih
    exact isSlebLength_succ ((lastGroup_encs_eq_false_iff r).1 hl) ih

/-- Settles O50: the bytes of the operand's low W bits have their value in two's complement and the minimal length, and
the run emits them. -/
theorem encsEmitsTheCanonicalSequence : Obligations.EncsEmitsTheCanonicalSequence := by
  intro w x s hb hown hs
  have hrem : (s.accepted .encs w x).rem.toInt = Int.bmod (x.toNat : Int) (2 ^ w.bits) := sextOperand_toInt w x
  obtain ⟨bytes, hbytes⟩ := exists_emits_encs (s.accepted .encs w x).rem
  obtain ⟨hlo, hhi⟩ := sextOperand_bounds w x
  have hlength := hbytes.encs_length
  have hgroups : bytes.length ≤ w.groups := isSlebLength_le_groups hlo hhi hlength
  obtain ⟨t, hrun, hend⟩ := run_issued_emits rfl hb hown hs hbytes hgroups
  exact ⟨bytes, t, hrun, hbytes.wellFormed, hbytes.encs_value.trans hrem, hrem ▸ hlength, hgroups, hend⟩

/-! ### Round trip -/

/-- The low W bits of an operand in the signed range of W bits stand for its value. -/
theorem bmod_toNat_eq_toInt {w : Width} {x : Operand} (hlo : -(2 ^ (w.bits - 1) : Int) ≤ x.toInt)
    (hhi : x.toInt < 2 ^ (w.bits - 1)) : Int.bmod (x.toNat : Int) (2 ^ w.bits) = x.toInt := by
  have hdvd : 2 ^ w.bits ∣ 2 ^ 128 := Nat.pow_dvd_pow 2 w.bits_le
  rw [← Int.bmod_bmod_of_dvd hdvd, ← BitVec.toInt_eq_toNat_bmod]
  have hhalf : (2 : Int) ^ w.bits = 2 * 2 ^ (w.bits - 1) := (mul_pow_sub_one (by have := w.bits_pos; omega) 2).symm
  apply Int.bmod_eq_of_le <;> push_cast <;> omega

/-- Settles O57: ENCS emits a well-formed sequence of the operand's value, at most N(W) long, which DECS decodes; what
follows it in the source is not read. -/
theorem signedRoundTrip : Obligations.SignedRoundTrip := by
  intro w x y s hb hown hs hempty hlo hhi
  obtain ⟨bytes, t, hrun, hwf, hvalue, hlength, hgroups, hdone, -, hcount, hsink, -, -⟩ :=
    encsEmitsTheCanonicalSequence w x s hb hown hs
  rw [bmod_toNat_eq_toInt hlo hhi] at hvalue hlength
  rw [hempty, List.nil_append] at hsink
  refine ⟨bytes.length, t, hrun, hdone, hcount, congrArg List.length hsink, hlength, ?_⟩
  rintro u hub huown ⟨ends, -, hlisted, -⟩
  rw [hsink] at hlisted
  rw [← hvalue] at hlo hhi
  obtain ⟨d, hdecode, hddone, -, hresult, hdcount, hlow, -⟩ :=
    decsDecodesWhatFits w y u bytes ends hub huown hlisted hwf hgroups hlo hhi
  exact ⟨d, hdecode, hddone, BitVec.eq_of_toInt_eq (hresult.trans hvalue), hlow.trans hvalue, hdcount⟩

end Sys2Proof.Machine
end

section
/-! PROOFS. DECS's read step as its rules write it (42_sleb128.md R171 to R174). -/

namespace Sys2Proof.Machine

/-- RESULT of DECS is the value that fits (42 R175). -/
theorem signedResult_eq_of_fits {w : Width} {x : Acc} (h : fitsS w x = true) :
    signedResult w x = BitVec.ofInt 128 x.toInt := by
  rw [← signedResult_toInt w x h, BitVec.ofInt_toInt]

/-- What DECS does with a byte whose payload has been placed, as the rules write it (42 R171 to R174). -/
theorem byteStepOf_decs_eq (w : Width) (b : Byte) (s : State) :
    byteStepOf .decs w b s = .next
      (if 128 ≤ b.toNat then
        if s.gidx.toNat + 1 = w.groups then s.raiseOverflow else { s with gidx := s.gidx + 1 }
      else if -(2 ^ (w.bits - 1) : Int) ≤ (sextAcc s.acc (s.gidx.toNat + 1)).toInt ∧
          (sextAcc s.acc (s.gidx.toNat + 1)).toInt < 2 ^ (w.bits - 1) then
        s.finishDecode (BitVec.ofInt 128 (sextAcc s.acc (s.gidx.toNat + 1)).toInt) (s.gidx + 1)
      else s.raiseOverflow) := by
  by_cases hb : 128 ≤ b.toNat
  · have hstep := decsByte_of_contBit (p := Config.params) (w := w) ((contBit_iff b).2 hb) s
    simp only [atBound_iff, Width.signedGroups_params] at hstep
    rw [if_pos hb]
    exact hstep
  · rw [byteStepOf_decs_terminating (Nat.not_le.1 hb), if_neg hb]
    simp only [← fitsS_iff]
    split
    · next hfits => rw [signedResult_eq_of_fits hfits]
    · rfl

/-- Settles O31: the read step by the answer, and a byte by `byteStepOf_decs_eq`. -/
theorem decsReadStep : Obligations.DecsReadStep := by
  intro w x s hq hopr hwr hg
  have hstep := exec_reading rfl ((State.isRunning_iff .decs w s).2 ⟨hq, hopr, hwr⟩) x
  refine ⟨?byte, ?endOfInput, ?failed, fun a t => srcNext_frame⟩
  case byte =>
    rintro t b acc v hread rfl rfl
    rw [← sextAcc_toInt _ _ (show s.gidx.toNat + 1 ≤ 20 from hg), hstep, readGroup_answeredByte hread,
      byteStepOf_decs_eq]
    obtain ⟨d, rfl⟩ := srcNext_some hread
    rfl
  case endOfInput => exact fun t hread => hstep.trans (readGroup_answeredEnd hread)
  case failed => exact fun info t hread => hstep.trans (readGroup_answeredFail hread)

end Sys2Proof.Machine
end

section
/-! PROOFS. The signed overflow detector: its three forms, and the last-group table it amounts to (42_sleb128.md R173 to
R176). -/

namespace Sys2Proof

/-! ### The detector -/

/-- A number is below 2^m exactly when its bits from m on are clear. -/
theorem toNat_lt_two_pow_iff (x : Acc) (m : Nat) :
    x.toNat < 2 ^ m ↔ ∀ i, m ≤ i → i < 140 → x.getLsbD i = false := by
  constructor
  · exact fun h i hi _ => Nat.testBit_lt_two_pow (h.trans_le (Nat.pow_le_pow_right (by decide) hi))
  · refine fun h => Nat.lt_pow_two_of_testBit _ fun i hi => ?_
    by_cases hlt : i < 140
    · exact h i hi hlt
    · exact BitVec.getLsbD_of_ge x i (Nat.not_lt.1 hlt)

/-- A value is in the signed range of m+1 bits exactly when it or its complement is below 2^m. -/
theorem toInt_range_iff (x : Acc) {m : Nat} (hm : m ≤ 139) :
    (-(2 ^ m : Int) ≤ x.toInt ∧ x.toInt < 2 ^ m) ↔ (x.toNat < 2 ^ m ∨ (~~~x).toNat < 2 ^ m) := by
  have hpow : 2 ^ m ≤ 2 ^ 139 := Nat.pow_le_pow_right (by decide) hm
  have hcast : (2 : Int) ^ m = ((2 ^ m : Nat) : Int) := (Nat.cast_pow 2 m).symm
  have hx := x.isLt
  rw [BitVec.toInt_eq_toNat_cond, BitVec.toNat_not, hcast]
  split <;> omega

/-- The bits of the complement from m on are clear where those of the value are set. -/
theorem toNat_not_lt_two_pow_iff (x : Acc) (m : Nat) :
    (~~~x).toNat < 2 ^ m ↔ ∀ i, m ≤ i → i < 140 → x.getLsbD i = true := by
  rw [toNat_lt_two_pow_iff]
  refine forall₃_congr fun i _ hi => ?_
  simp [hi]

/-- The second form of R174: the bits of x from W-1 up are all alike. -/
theorem fitsS_iff_bits (w : Width) (x : Acc) :
    fitsS w x = true ↔
      ((∀ i, w.bits - 1 ≤ i → i < 140 → x.getLsbD i = false) ∨
        (∀ i, w.bits - 1 ≤ i → i < 140 → x.getLsbD i = true)) := by
  have hle := w.bits_le
  rw [fitsS_iff, toInt_range_iff x (by omega), toNat_lt_two_pow_iff, toNat_not_lt_two_pow_iff]

/-- A sign extension has the bits of the n groups, and above them their top bit. -/
theorem sextAcc_getLsbD (acc : Acc) {n i : Nat} (hn : 1 ≤ n) (hi : i < 140) :
    (sextAcc acc n).getLsbD i = if i < 7 * n then acc.getLsbD i else acc.getLsbD (7 * n - 1) := by
  have htop : 7 * n - 1 < 7 * n := by omega
  rw [sextAcc, BitVec.getLsbD_signExtend, BitVec.msb_eq_getLsbD_last, BitVec.getLsbD_setWidth,
    BitVec.getLsbD_setWidth]
  simp only [hi, htop, decide_true, Bool.true_and]
  split
  · next hlt => rw [decide_eq_true hlt, Bool.true_and]
  · rfl

/-- Where bit `m` is in the groups, the sign extension has one bit `v` throughout from m on exactly when the groups
have. -/
theorem sextAcc_bits_iff (acc : Acc) {n m : Nat} (v : Bool) (hn : 1 ≤ n) (hn20 : n ≤ 20) (hm : m ≤ 7 * n - 1) :
    (∀ i, m ≤ i → i < 140 → (sextAcc acc n).getLsbD i = v) ↔
      (∀ i, m ≤ i → i ≤ 7 * n - 1 → acc.getLsbD i = v) := by
  constructor
  · intro h i hmi hi
    have hbit := h i hmi (by omega)
    rwa [sextAcc_getLsbD acc hn (by omega), if_pos (by omega)] at hbit
  · intro h i hmi hi
    rw [sextAcc_getLsbD acc hn hi]
    split
    · exact h i hmi (by omega)
    · exact h _ hm (Nat.le_refl _)

/-- The third form of R174: the groups end below bit W-1, or their bits from W-1 up are all alike. -/
theorem fitsS_sextAcc_iff_bits (w : Width) (acc : Acc) {n : Nat} (hn : 1 ≤ n) (hn20 : n ≤ 20) :
    fitsS w (sextAcc acc n) = true ↔
      (7 * n - 1 < w.bits - 1 ∨
        (∀ i, w.bits - 1 ≤ i → i ≤ 7 * n - 1 → acc.getLsbD i = false) ∨
        (∀ i, w.bits - 1 ≤ i → i ≤ 7 * n - 1 → acc.getLsbD i = true)) := by
  rw [fitsS_iff_bits]
  by_cases htop : 7 * n - 1 < w.bits - 1
  · have hbit : ∀ i, w.bits - 1 ≤ i → i < 140 → (sextAcc acc n).getLsbD i = acc.getLsbD (7 * n - 1) :=
      fun i hwi hi => by rw [sextAcc_getLsbD acc hn hi, if_neg (by omega)]
    refine iff_of_true ?_ (.inl htop)
    cases hv : acc.getLsbD (7 * n - 1) with
    | false => exact .inl (hv ▸ hbit)
    | true => exact .inr (hv ▸ hbit)
  · rw [sextAcc_bits_iff acc false hn hn20 (Nat.not_lt.1 htop), sextAcc_bits_iff acc true hn hn20 (Nat.not_lt.1 htop),
      or_iff_right htop]

/-- Settles O36: the three forms, each against the range of W bits. -/
theorem signedDetectorForms : Obligations.SignedDetectorForms := by
  refine ⟨fun w x => ?range, fitsS_iff_bits, fun w acc n => fitsS_sextAcc_iff_bits w acc⟩
  case range => rw [fitsS_iff, Int.le_sub_one_iff]

/-! ### The last group -/

/-- Above an accumulator that is zero from group k on, the sign extension counts the payload signed, at bit offset
7k. -/
theorem sextAcc_accWrite_toInt {acc : Acc} {k : Nat} (hk : k < 20) (h : acc.toNat < 2 ^ (7 * k)) (p : Payload) :
    (sextAcc (accWrite acc k p) (k + 1)).toInt = acc.toNat + p.toInt * 2 ^ (7 * k) := by
  have hpow : 2 ^ (7 * (k + 1)) = 128 * 2 ^ (7 * k) := by rw [Nat.mul_succ, Nat.pow_add, Nat.mul_comm]
  have hlt := accWrite_lt hk h p
  rw [sextAcc_toInt _ _ hk, BitVec.toInt_eq_toNat_cond, BitVec.toNat_setWidth, Nat.mod_eq_of_lt hlt,
    accWrite_toNat hk h, BitVec.toInt_eq_toNat_cond, hpow]
  by_cases hsign : p.toNat < 64
  · have hmul : p.toNat * 2 ^ (7 * k) ≤ 63 * 2 ^ (7 * k) := Nat.mul_le_mul_right _ (by omega)
    rw [if_pos (by omega), if_pos (by omega)]
    push_cast
    rfl
  · have hmul : 64 * 2 ^ (7 * k) ≤ p.toNat * 2 ^ (7 * k) := Nat.mul_le_mul_right _ (by omega)
    rw [if_neg (by omega), if_neg (by omega)]
    push_cast
    ring

/-- There the detector is one on the payload alone, read signed: it fits in the bits from 7k to W-1. -/
theorem fitsS_accWrite_iff {w : Width} {acc : Acc} {k : Nat} (h : acc.toNat < 2 ^ (7 * k)) (hk : 7 * k < w.bits)
    (p : Payload) :
    fitsS w (sextAcc (accWrite acc k p) (k + 1)) = true ↔
      -(2 ^ (w.bits - 7 * k - 1) : Int) ≤ p.toInt ∧ p.toInt < 2 ^ (w.bits - 7 * k - 1) := by
  have hk20 : k < 20 := by have := w.bits_le; omega
  have hpos : (0 : Int) < 2 ^ (7 * k) := by positivity
  have hacc : (acc.toNat : Int) / 2 ^ (7 * k) = 0 := Int.ediv_eq_zero_of_lt (by omega) (mod_cast h)
  have hquot : ((acc.toNat : Int) + p.toInt * 2 ^ (7 * k)) / 2 ^ (7 * k) = p.toInt := by
    rw [Int.add_mul_ediv_right _ _ hpos.ne', hacc, zero_add]
  have hpow : (2 : Int) ^ (w.bits - 1) = 2 ^ (w.bits - 7 * k - 1) * 2 ^ (7 * k) := by
    rw [← pow_add]; congr 1; omega
  rw [fitsS_iff, sextAcc_accWrite_toInt hk20 h, hpow, ← neg_mul, ← Int.le_ediv_iff_mul_le hpos,
    ← Int.ediv_lt_iff_lt_mul hpos, hquot]

/-- A terminating byte's payload is in the signed range of m+1 bits exactly when its bits from m to 6 are all clear or
all set. -/
theorem payload_toInt_range_iff {b : Byte} (hb : b.toNat < 128) {m : Nat} (hm : m ≤ 6) :
    (-(2 ^ m : Int) ≤ (payload b).toInt ∧ (payload b).toInt < 2 ^ m) ↔ (b.toNat < 2 ^ m ∨ 128 - 2 ^ m ≤ b.toNat) := by
  have hpow : 2 ^ m ≤ 2 ^ 6 := Nat.pow_le_pow_right (by decide) hm
  have hcast : (2 : Int) ^ m = ((2 ^ m : Nat) : Int) := (Nat.cast_pow 2 m).symm
  rw [BitVec.toInt_eq_toNat_cond, payload_toNat, Nat.mod_eq_of_lt hb, hcast]
  split <;> omega

/-- Settles O37: before group N(W)-1 every payload fits; there the signed payload is held against the
W - 7(N(W)-1) bits left. -/
theorem signedLastGroupTable : Obligations.SignedLastGroupTable := by
  refine ⟨fun w acc k b hacc hb => ⟨fun hk => ?before, fun hk => ?atLast⟩, fun w b s hb hk => ?continues⟩
  case before =>
    have hlast := w.groups_spec.1
    have hseven : (2 : Int) ^ 6 ≤ 2 ^ (w.bits - 7 * k - 1) := pow_le_pow_right₀ (by decide) (by omega)
    have hlo := BitVec.le_toInt (payload b)
    have hhi := BitVec.toInt_lt (x := payload b)
    rw [fitsS_accWrite_iff hacc (by omega)]
    omega
  case atLast =>
    obtain ⟨hlast, hbits, -⟩ := w.groups_spec
    obtain rfl : k = w.groups - 1 := by omega
    rw [fitsS_accWrite_iff hacc hlast, payload_toInt_range_iff hb (by omega)]
  case continues => exact Machine.byteStepOf_overflows_at_bound (o := .decs) hb hk

end Sys2Proof
end

section
/-! PROOFS. Error entry, and that every command ends: a group step is taken where the ports answer, and ends the command
or goes on to the next group below the bound (60_exceptions.md R204, R207, R210; 70_reset_and_hazards.md R238). -/

namespace Sys2Proof.Machine

/-! ### A group step where the ports answer -/

theorem srcNext_answers {s : State} (h : s.src.rest ≠ .silent) : ∃ a t, srcNext s = some (a, t) := by
  cases he : srcNext s with
  | none => exact absurd ((srcNext_none_iff s).1 he).2 h
  | some p => exact ⟨p.1, p.2, rfl⟩

theorem snkPut_answers {s : State} (h : s.snk.rest ≠ .silent) (b : Byte) : ∃ a t, snkPut b s = some (a, t) := by
  cases he : snkPut b s with
  | none => exact absurd ((snkPut_none_iff b s).1 he).2 h
  | some p => exact ⟨p.1, p.2, rfl⟩

theorem emitGroup_answers {s : State} (h : s.snk.rest ≠ .silent) (r : Operand) (last : Bool) (b : Byte) :
    ∃ t, emitGroup r last b s = .next t := by
  obtain ⟨a, u, hput⟩ := snkPut_answers (s := { s with rem := r }) h b
  cases a with
  | ok => exact ⟨_, emitGroup_accepted hput⟩
  | fail info => exact ⟨_, emitGroup_failed hput⟩

/-- A decoder has a next state for every byte. -/
theorem byteStepOf_answers (o : Op) (w : Width) (b : Byte) (s : State) : ∃ t, byteStepOf o w b s = .next t := by
  by_cases ho : o = .decu
  · exact ho ▸ ⟨_, byteStepOf_decu_eq w b s⟩
  · have hdecs : byteStepOf o w b s = byteStepOf .decs w b s := by simp [byteStepOf, ho]
    exact hdecs ▸ ⟨_, byteStepOf_decs_eq w b s⟩

theorem readGroup_answers {f : Byte → State → Result} {s : State} (h : s.src.rest ≠ .silent)
    (hf : ∀ b u, ∃ t, f b u = .next t) : ∃ t, readGroup f s = .next t := by
  obtain ⟨a, u, hread⟩ := srcNext_answers h
  cases a with
  | byte b => exact readGroup_answeredByte (f := f) hread ▸ hf b _
  | endOfInput => exact ⟨_, readGroup_answeredEnd hread⟩
  | fail info => exact ⟨_, readGroup_answeredFail hread⟩

theorem groupStepOf_answers {s : State} (h : s.portsAnswer) (o : Op) (w : Width) :
    ∃ t, groupStepOf o w s = .next t := by
  obtain ⟨hsrc, hsnk⟩ := h
  cases ho : o.isEncoder with
  | true => exact groupStepOf_encoder_eq ho w s ▸ emitGroup_answers hsnk _ _ _
  | false => exact groupStepOf_decoder ho w s ▸ readGroup_answers hsrc (byteStepOf_answers o w)

/-! ### The end or the next group -/

/-- `t` is past one more group of the command that runs in `s`, whose ports and host's side are as they were. -/
def State.goesOnTo (s t : State) : Prop :=
  (t.seq = s.seq ∧ t.opr = s.opr ∧ t.wr = s.wr ∧ t.gidx = s.gidx + 1) ∧
    t.host = s.host ∧ t.src.rest = s.src.rest ∧ t.snk.rest = s.snk.rest

theorem emitGroup_ends_or_goesOn {r : Operand} {last : Bool} {b : Byte} {s t : State}
    (h : emitGroup r last b s = .next t) : (t.seq = .done ∨ t.seq = .error) ∨ s.goesOnTo t := by
  rcases emitGroup_next h with ⟨info, u, -, rfl⟩ | ⟨u, hput, rfl⟩
  · exact .inl (.inr rfl)
  · obtain ⟨d, rfl⟩ := snkPut_some hput
    cases last
    · exact .inr ⟨⟨rfl, rfl, rfl, rfl⟩, rfl, rfl, rfl⟩
    · exact .inl (.inl rfl)

/-- A group step ends the command or goes on to the next group. -/
theorem groupStepOf_ends_or_goesOn {o : Op} {w : Width} {s t : State} (h : groupStepOf o w s = .next t) :
    (t.seq = .done ∨ t.seq = .error) ∨ s.goesOnTo t := by
  cases ho : o.isEncoder with
  | true => exact emitGroup_ends_or_goesOn ((groupStepOf_encoder_eq ho w s).symm.trans h)
  | false =>
    obtain ⟨a, d, u, rfl, ⟨-, rfl⟩ | ⟨info, -, rfl⟩ | ⟨b, v, -, rfl, rfl | ⟨-, rfl⟩ | rfl⟩⟩ :=
      groupStepOf_decoder_next ho h
    · exact .inl (.inr rfl)
    · exact .inl (.inr rfl)
    · exact .inl (.inr rfl)
    · exact .inr ⟨⟨rfl, rfl, rfl, rfl⟩, rfl, Source.answered_rest .., rfl⟩
    · exact .inl (.inl rfl)

/-! ### Every command ends -/

theorem State.encodingInv_isEncoder {s : State} (h : s.encodingInv) : s.opr.isEncoder = true := by
  obtain ⟨-, hop⟩ := h
  cases ho : s.opr with
  | encu | encs => rfl
  | decu | decs => simp [ho] at hop

theorem State.readingInv_isDecoder {s : State} (h : s.readingInv) : s.opr.isEncoder = false := by
  obtain ⟨-, hop⟩ := h
  cases ho : s.opr with
  | encu | encs => simp [ho] at hop
  | decu | decs => rfl

/-- Under the invariant the state of a running command is that of the operation in OPR, and GIDX is below the bound. -/
theorem State.Inv.running {s : State} (hs : s.Inv) (hb : s.seq.busy = true) :
    s.isRunning s.opr s.wr = true ∧ s.gidx.toNat < s.wr.groups := by
  rw [State.isRunning_iff]
  rcases (Seq.busy_eq_true s.seq).1 hb with hq | hq
  · have henc := (State.inv_of_encoding hq).1 hs
    have hseq := runningSeq_encoder (State.encodingInv_isEncoder henc)
    exact ⟨⟨hq.trans hseq.symm, rfl, rfl⟩, State.encodingInv_gidx henc⟩
  · have hread := (State.inv_of_reading hq).1 hs
    have hseq := runningSeq_decoder (State.readingInv_isDecoder hread)
    exact ⟨⟨hq.trans hseq.symm, rfl, rfl⟩, State.readingInv_gidx hread⟩

/-- From any group of a running command the run ends within the groups that are left, by induction on how many are. -/
theorem run_ends {s : State} (hs : s.Inv) (hb : s.seq.busy = true) (hh : s.host = []) (hp : s.portsAnswer) :
    ∃ (n : Nat) (t : State), 1 ≤ n ∧ n + s.gidx.toNat ≤ s.wr.groups ∧ Sys2Proof.core.run n s = .next t ∧
      (t.seq = .done ∨ t.seq = .error) := by
  obtain ⟨hr, hg⟩ := hs.running hb
  obtain ⟨u, hu⟩ := groupStepOf_answers hp s.opr s.wr
  have hstep : step s = .next u := (step_groupStep hr hh).trans hu
  rcases groupStepOf_ends_or_goesOn hu with hend | ⟨⟨hq, -, hwr, hgidx⟩, hhost, hsrc, hsnk⟩
  · exact ⟨1, u, Nat.le_refl 1, by omega, core_run_succ hstep, hend⟩
  · have hsucc : u.gidx.toNat = s.gidx.toNat + 1 := hgidx ▸ gidx_succ_toNat hg
    have hports : u.portsAnswer := ⟨hsrc ▸ hp.1, hsnk ▸ hp.2⟩
    obtain ⟨n, t, -, hn, hrun, hend⟩ := run_ends (groupStep_inv hs hr hu) (hq ▸ hb) (hhost.trans hh) hports
    rw [hwr, hsucc] at hn
    exact ⟨n + 1, t, Nat.le_add_left 1 n, by omega, (core_run_succ hstep).trans hrun, hend⟩
termination_by s.wr.groups - s.gidx.toNat
decreasing_by
  rw [hwr, hsucc]
  omega

/-- Settles O58: a command's acceptance meets the invariant at group 0, and from there `run_ends`. -/
theorem everyCommandEnds : Obligations.EveryCommandEnds := by
  simp only [Obligations.EveryCommandEnds, Width.signedGroups_params, ite_self]
  refine ⟨fun o w x s hb hown hp => ?_, fun s => run_ends⟩
  have hstep : step (s.issued o w x) = .next (s.accepted o w x) := step_accepts (s := s.issued o w x) hb hown rfl
  have hbusy : (s.accepted o w x).seq.busy = true := by simp [State.accepted, runningSeq_busy]
  have hports : (s.accepted o w x).portsAnswer := by simpa [State.accepted, State.portsAnswer] using hp
  obtain ⟨n, t, hpos, hn, hrun, hend⟩ :=
    run_ends (State.start_inv o w x _) hbusy (State.start_host ..) hports
  rw [State.start_wr, State.start_gidx] at hn
  refine ⟨n, t, hpos, hn, ?_, hend⟩
  rw [Nat.add_comm]
  exact (core_run_succ hstep).trans hrun

/-! ### Error entry -/

/-- A command's step enters ERROR by one of the three error entries, from a state in which the group step has written
no more than REM, ACC and the streams (R204). -/
theorem exec_enters_error {i : Instr} {s t : State} (h : exec i s = .next t) (herr : t.seq = .error) :
    ∃ rem acc src snk d u, u = { s with rem := rem, acc := acc, src := src, snk := snk, draws := d } ∧
      (t = u.raiseOverflow ∨ t = u.raiseTruncated ∨ ∃ p info, t = u.raiseIoFailure p info) := by
  rw [← Instr.of_fields i] at h
  rcases exec_of_next h with ⟨-, rfl⟩ | ⟨hr, hg⟩ | ⟨hb, -, rfl⟩
  · rw [State.start_seq] at herr
    cases herr ▸ runningSeq_busy i.op
  · have hrunning : s.seq ≠ .error := by
      intro hq
      cases (State.isRunning_seq hr).symm.trans hq ▸ runningSeq_busy i.op
    cases ho : i.op.isEncoder with
    | true =>
      rw [groupStepOf_encoder_eq ho] at hg
      obtain ⟨snk, d, u, rfl, ⟨info, kept, -, -, rfl⟩ | ⟨-, -, rfl⟩ | ⟨-, -, rfl⟩⟩ := emitGroup_outcome hg
      · exact ⟨_, _, _, _, _, _, rfl, .inr (.inr ⟨_, _, rfl⟩)⟩
      · cases herr
      · exact absurd herr hrunning
    | false =>
      obtain ⟨a, d, u, rfl, ⟨-, rfl⟩ | ⟨info, -, rfl⟩ | ⟨b, v, -, rfl, rfl | ⟨-, rfl⟩ | rfl⟩⟩ :=
        groupStepOf_decoder_next ho hg
      · exact ⟨_, _, _, _, _, _, rfl, .inr (.inl rfl)⟩
      · exact ⟨_, _, _, _, _, _, rfl, .inr (.inr ⟨_, _, rfl⟩)⟩
      · exact ⟨_, _, _, _, _, _, rfl, .inl rfl⟩
      · exact absurd herr hrunning
      · cases herr
  · rw [herr] at hb
    cases hb

/-- Settles O41: by the error entry, what it writes. -/
theorem errorEntryWritesOnlyTheError : Obligations.ErrorEntryWritesOnlyTheError := by
  intro i s t h herr
  obtain ⟨rem, acc, src, snk, d, u, rfl, rfl | rfl | ⟨p, info, rfl⟩⟩ := exec_enters_error h herr
  · exact ⟨rfl, rfl, nofun, fun _ => ⟨rfl, rfl⟩⟩
  · exact ⟨rfl, rfl, nofun, fun _ => ⟨rfl, rfl⟩⟩
  · exact ⟨rfl, rfl, nofun, fun hio => absurd rfl hio⟩

end Sys2Proof.Machine
end

section
/-! PROOFS. Reset and hazards (70_reset_and_hazards.md R230 to R234, R243): the wait, a held `Issue`, a held command, and
what a reset at any time does to the streams. -/

namespace Sys2Proof.Machine

/-! ### Waiting and holding -/

/-- Settles O8: the step is the core's own, which waits. -/
theorem waitsWithoutACommand : Obligations.WaitsWithoutACommand :=
  fun _ hb hh => (step_core (.inl hh)).trans (coreStep_waiting hb)

/-- No step of a command takes anything off the host's list (R234). -/
theorem exec_of_keeps_host {o : Op} {w : Width} {x : Operand} {s t : State} (h : exec (.of o w x) s = .next t) :
    t.host = s.host := by
  cases ho : o.isEncoder with
  | true =>
    obtain ⟨⟨-, -, -, hhost, -⟩, -⟩ := encoderFrame _ _ _ _ _ ho h
    exact hhost
  | false =>
    obtain ⟨⟨-, -, hhost, -⟩, -⟩ := decoderFrame _ _ _ _ _ ho h
    exact hhost

/-- Settles O9: while a command runs the step is that command's, which keeps the host's list; with none running the
`Issue` is taken. -/
theorem issueIsHeldWhileBusy : Obligations.IssueIsHeldWhileBusy := by
  intro s cmd x more hh
  obtain ⟨htaken, hheld, -⟩ := stepRunsTheDecodedInstruction
  constructor
  · intro hb t h
    have hexec : exec (.of s.opr s.wr 0) s = .next t := (hheld s hb (.inr ⟨cmd, x, more, hh⟩)).symm.trans h
    exact ⟨exec_of_keeps_host hexec, hexec⟩
  · exact fun hb i hd => htaken s cmd x more i hb hh hd

/-- Settles O10: a command that differs in operation or width from OPR and WR is not the one that runs. -/
theorem heldCommandHasNoEffect : Obligations.HeldCommandHasNoEffect := by
  intro s o w x hb hne
  have hr : s.isRunning o w = false := by
    rw [← Bool.not_eq_true, State.isRunning_iff]
    rintro ⟨-, ho, hw⟩
    exact hne.elim (· ho.symm) (· hw.symm)
  rw [exec_of, command_held hb hr]

/-! ### Reset -/

/-- Settles O13: the launch premises are decided on the reset state. -/
theorem resetStateMeetsTheLaunchPremises : Obligations.ResetStateMeetsTheLaunchPremises := by
  unfold Obligations.ResetStateMeetsTheLaunchPremises
  decide

/-- Settles O45: the reset state is IDLE, of which the invariant asks nothing. -/
theorem invariantHoldsAtReset : Obligations.InvariantHoldsAtReset := trivial

/-- After a reset only STATE can be read (R230, R243). -/
theorem applyReset_afterReset (s : State) : (applyReset s).afterReset = true := rfl

/-- With no command running a reset touches neither stream (R230). -/
theorem applyReset_streams_idle {s : State} (hb : s.seq.busy = false) :
    (applyReset s).src = s.src ∧ (applyReset s).snk = s.snk := by
  simp [applyReset, hb]

/-- While a command runs a reset leaves the streams as abandoning the command leaves them. -/
theorem applyReset_streams_busy {s : State} (hb : s.seq.busy = true) :
    (applyReset s).src = (abandon s).src ∧ (applyReset s).snk = (abandon s).snk := by
  simp [applyReset, hb]

/-- A reset in a read leaves the sink alone, and of the source uses up the pending read or nothing (R232). -/
theorem applyReset_streams_reading {s : State} (hq : s.seq = .reading) :
    (applyReset s).snk = s.snk ∧ ((applyReset s).src = s.src ∨ (applyReset s).src = s.src.movedAtReset) := by
  obtain ⟨hsrc, hsnk⟩ := applyReset_streams_busy (s := s) (by rw [hq]; rfl)
  rw [hsrc, hsnk]
  rcases abandon_cases s with h | ⟨henc, -⟩ | ⟨-, h⟩ | ⟨hb, -⟩
  · rw [h]; exact ⟨rfl, .inl rfl⟩
  · cases hq.symm.trans henc
  · rw [h]; exact ⟨rfl, .inr rfl⟩
  · rw [hq] at hb; cases hb

/-- A reset in an encode leaves the source alone, and to the sink gives the pending byte or nothing (R232). -/
theorem applyReset_streams_encoding {s : State} (hq : s.seq = .encoding) :
    (applyReset s).src = s.src ∧
      ((applyReset s).snk = s.snk ∨ (applyReset s).snk = s.snk.movedAtReset (pendingByte s)) := by
  obtain ⟨hsrc, hsnk⟩ := applyReset_streams_busy (s := s) (by rw [hq]; rfl)
  rw [hsrc, hsnk]
  rcases abandon_cases s with h | ⟨-, h⟩ | ⟨hread, -⟩ | ⟨hb, -⟩
  · rw [h]; exact ⟨rfl, .inl rfl⟩
  · rw [h]; exact ⟨rfl, .inr rfl⟩
  · cases hq.symm.trans hread
  · rw [hq] at hb; cases hb

theorem pendingByte_encu {s : State} (h : s.opr = .encu) : pendingByte s = encuByte s.rem := by
  simp [pendingByte, h]

theorem pendingByte_encs {s : State} (h : s.opr = .encs) : pendingByte s = encsByte s.rem := by
  simp [pendingByte, h]

/-- What the pending `SnkPut(b)` at a reset can do to the sink: add the byte and use up one answer. -/
theorem Sink.movedAtReset_spec (b : Byte) (x : Sink) :
    (x.movedAtReset b).listed = x.listed.tail ∧ (x.movedAtReset b).rest = x.rest ∧
      (x.movedAtReset b).shared = x.shared ∧ (x.movedAtReset b).bytes = x.bytes ++ [b] :=
  ⟨rfl, rfl, rfl, rfl⟩

/-- Settles O14: the step is the host's reset; the three clauses on the streams are the three lemmas on them, and the
moved source and sink are as their specifications say. -/
theorem resetAtAnyTime : Obligations.ResetAtAnyTime := by
  intro s more hh
  refine ⟨applyReset { s with host := more }, step_host hh (.inl rfl), applyReset_afterReset _, applyReset_host _,
    applyReset_readout _, applyReset_streams_idle (s := { s with host := more }), fun hq => ?reading,
    fun hq => ?encoding⟩
  case reading =>
    obtain ⟨hsnk, hsrc⟩ := applyReset_streams_reading (s := { s with host := more }) hq
    refine ⟨hsnk, hsrc.imp_right fun hmoved => ⟨hmoved, ?_⟩⟩
    rw [hmoved]
    exact s.src.movedAtReset_spec
  case encoding =>
    obtain ⟨hsrc, hsnk⟩ := applyReset_streams_encoding (s := { s with host := more }) hq
    refine ⟨hsrc, hsnk.imp_right fun hmoved => ⟨hmoved, ?_⟩⟩
    obtain ⟨hlisted, hrest, hshared, hbytes⟩ := s.snk.movedAtReset_spec (pendingByte s)
    rw [hmoved]
    exact ⟨hlisted, hrest, hshared, fun ho => pendingByte_encu ho ▸ hbytes, fun ho => pendingByte_encs ho ▸ hbytes⟩

end Sys2Proof.Machine
end
